-- ==== Sys2Proof/Word.lean ====
section
/-! DEFINITION. The word types of the core: bytes, addresses, opcodes, display rows, register and key numbers. -/

namespace Sys2Proof

/-- One byte: a general register, a timer, a memory cell (R20, R34, R60). -/
abbrev Byte := BitVec 8

/-- A 12-bit address (R26, R60). -/
abbrev Addr := BitVec 12

/-- A 16-bit instruction word (R90). -/
abbrev Opcode := BitVec 16

/-- One display row of 64 pixels, most significant bit leftmost (R40). -/
abbrev RowBits := BitVec 64

/-- The number of a general register, V0 to VF (R20). -/
abbrev Reg := Fin 16

/-- The number of a key, 0x0 to 0xF (R36). -/
abbrev Key := Fin 16

/-- VF, the flag register (R21). -/
abbrev regVF : Reg := 15

end Sys2Proof
end

