-- ==== Sys2Proof/Config.lean ====
section
/-! DEFINITION. The construction-time configuration (R6, R43), its defaults, and the free values the spec leaves open. -/

namespace Sys2Proof

/-- The two values of each compatibility profile (R6). The names are labels only, with the meanings of R169, R171,
R194 and R195 (I10). -/
inductive Profile where
  | legacy
  | modern
  deriving DecidableEq, Repr, Inhabited

/-- The two call-stack policies (R30 to R32). -/
inductive StackPolicy where
  | bounded
  | wrap8
  deriving DecidableEq, Repr

/-- The construction arguments that the machine keeps, fixed for its life (R6, R43). -/
structure Config where
  shiftProfile  : Profile
  memIncProfile : Profile
  stackPolicy   : StackPolicy
  clsSetsDrawn  : Bool
  font          : Vector Byte 80
  deriving DecidableEq, Repr

/-- Glyphs 0 to 7 of the default FONT, five bytes each (R64). Digit 0 is the source's own; the others are the spec's
default from general knowledge (PRESUMED, log entry 4). -/
def Config.glyphs0to7 : List Byte :=
  [0xF0, 0x90, 0x90, 0x90, 0xF0] ++
  [0x20, 0x60, 0x20, 0x20, 0x70] ++
  [0xF0, 0x10, 0xF0, 0x80, 0xF0] ++
  [0xF0, 0x10, 0xF0, 0x10, 0xF0] ++
  [0x90, 0x90, 0xF0, 0x10, 0x10] ++
  [0xF0, 0x80, 0xF0, 0x10, 0xF0] ++
  [0xF0, 0x80, 0xF0, 0x90, 0xF0] ++
  [0xF0, 0x10, 0x20, 0x40, 0x40]

/-- Glyphs 8 to F of the default FONT (R64; PRESUMED, log entry 4). -/
def Config.glyphs8toF : List Byte :=
  [0xF0, 0x90, 0xF0, 0x90, 0xF0] ++
  [0xF0, 0x90, 0xF0, 0x10, 0xF0] ++
  [0xF0, 0x90, 0xF0, 0x90, 0x90] ++
  [0xE0, 0x90, 0xE0, 0x90, 0xE0] ++
  [0xF0, 0x80, 0x80, 0x80, 0xF0] ++
  [0xE0, 0x90, 0x90, 0x90, 0xE0] ++
  [0xF0, 0x80, 0xF0, 0x80, 0xF0] ++
  [0xF0, 0x80, 0xF0, 0x80, 0x80]

/-- The bytes of the default FONT in address order (R64). -/
def Config.defaultFontBytes : List Byte :=
  Config.glyphs0to7 ++ Config.glyphs8toF

/-- The default value of the parameter FONT (R6, R64). -/
def Config.defaultFont : Vector Byte 80 :=
  ⟨Config.defaultFontBytes.toArray, by decide⟩

/-- FREE VALUE. SHIFT_PROFILE of the machine State.reset stands for: the spec gives this argument no default (R6, D3).
DESIGN CHOICE, log entry 2 (safe: nothing can be proved about it). -/
opaque Config.openShiftProfile : Profile

/-- FREE VALUE. MEMINC_PROFILE of the machine State.reset stands for: the spec gives this argument no default (R6, D3).
DESIGN CHOICE, log entry 2 (safe: nothing can be proved about it). -/
opaque Config.openMemIncProfile : Profile

/-- FREE VALUE. The byte that the n-th CXNN draws (R172, D8: a free draw under no law). DESIGN CHOICE of form, log
entry 1 (safe: nothing can be proved about it). -/
opaque Config.randomByte : Nat → Byte

/-- The configuration of State.reset: the spec's defaults where it gives one (R6, R43), and the two open profiles.
Log entries 2 and 3. -/
def Config.reset : Config :=
  { shiftProfile := Config.openShiftProfile
    memIncProfile := Config.openMemIncProfile
    stackPolicy := .bounded
    clsSetsDrawn := false
    font := Config.defaultFont }

end Sys2Proof
end

