-- ==== Sys2Proof/Syntax.lean ====
section
/-! DEFINITION. The instructions: one constructor per row of spec/opcode_table.json, in the table's order (R96). -/

namespace Sys2Proof

/-- The 34 instructions of R96. `x` and `y` are the register fields X and Y, `nn` the byte NN, `nnn` the address NNN,
`n` the sprite height N (a count, checked by Instr.wellFormed; log entry 14). -/
inductive Instr where
  /-- 00E0 CLS (R210). -/
  | cls
  /-- 00EE RET (R141). -/
  | ret
  /-- 1NNN JP addr (R142). -/
  | jp (nnn : Addr)
  /-- 2NNN CALL addr (R143). -/
  | call (nnn : Addr)
  /-- 3XNN SE Vx, byte (R144). -/
  | seImm (x : Reg) (nn : Byte)
  /-- 4XNN SNE Vx, byte (R145). -/
  | sneImm (x : Reg) (nn : Byte)
  /-- 5XY0 SE Vx, Vy (R146). -/
  | seReg (x y : Reg)
  /-- 6XNN LD Vx, byte (R161). -/
  | ldImm (x : Reg) (nn : Byte)
  /-- 7XNN ADD Vx, byte (R162). -/
  | addImm (x : Reg) (nn : Byte)
  /-- 8XY0 LD Vx, Vy (R163). -/
  | ldReg (x y : Reg)
  /-- 8XY1 OR Vx, Vy (R164). -/
  | orReg (x y : Reg)
  /-- 8XY2 AND Vx, Vy (R165). -/
  | andReg (x y : Reg)
  /-- 8XY3 XOR Vx, Vy (R166). -/
  | xorReg (x y : Reg)
  /-- 8XY4 ADD Vx, Vy (R167). -/
  | addReg (x y : Reg)
  /-- 8XY5 SUB Vx, Vy (R168). -/
  | subReg (x y : Reg)
  /-- 8XY6 SHR Vx, Vy (R169). -/
  | shr (x y : Reg)
  /-- 8XY7 SUBN Vx, Vy (R170). -/
  | subn (x y : Reg)
  /-- 8XYE SHL Vx, Vy (R171). -/
  | shl (x y : Reg)
  /-- 9XY0 SNE Vx, Vy (R147). -/
  | sneReg (x y : Reg)
  /-- ANNN LD I, addr (R190). -/
  | ldI (nnn : Addr)
  /-- BNNN JP V0, addr (R148). -/
  | jpV0 (nnn : Addr)
  /-- CXNN RND Vx, byte (R172). -/
  | rnd (x : Reg) (nn : Byte)
  /-- DXYN DRW Vx, Vy, nibble (R212). -/
  | drw (x y : Reg) (n : Nat)
  /-- EX9E SKP Vx (R231). -/
  | skp (x : Reg)
  /-- EXA1 SKNP Vx (R232). -/
  | sknp (x : Reg)
  /-- FX07 LD Vx, DT (R234). -/
  | ldVxDT (x : Reg)
  /-- FX0A LD Vx, K (R233). -/
  | ldVxK (x : Reg)
  /-- FX15 LD DT, Vx (R235). -/
  | ldDTVx (x : Reg)
  /-- FX18 LD ST, Vx (R236). -/
  | ldSTVx (x : Reg)
  /-- FX1E ADD I, Vx (R191). -/
  | addI (x : Reg)
  /-- FX29 LD F, Vx (R192). -/
  | ldF (x : Reg)
  /-- FX33 LD B, Vx (R193). -/
  | ldB (x : Reg)
  /-- FX55 LD [I], Vx (R194). -/
  | storeRegs (x : Reg)
  /-- FX65 LD Vx, [I] (R195). -/
  | loadRegs (x : Reg)
  deriving DecidableEq, Repr

end Sys2Proof
end

