-- ==== Sys2Proof/WellFormed.lean ====
section
/-! DEFINITION. The checks that make an instruction term encodable and a configuration legal. -/

namespace Sys2Proof

/-- The sprite height N is a 4-bit unsigned value (R93). -/
def heightFits (n : Nat) : Bool :=
  decide (n < 16)

/-- An instruction term is well formed when each operand fits its field (R91, R93). The types of the other operands
already hold them to their fields' ranges, so the sprite height is the one operand to check. -/
def Instr.wellFormed : Instr → Bool
  | .drw _ _ n => heightFits n
  | .cls | .ret | .jp _ | .call _ | .seImm _ _ | .sneImm _ _ | .seReg _ _ | .ldImm _ _ | .addImm _ _
  | .ldReg _ _ | .orReg _ _ | .andReg _ _ | .xorReg _ _ | .addReg _ _ | .subReg _ _ | .shr _ _
  | .subn _ _ | .shl _ _ | .sneReg _ _ | .ldI _ | .jpV0 _ | .rnd _ _ | .skp _ | .sknp _ | .ldVxDT _
  | .ldVxK _ | .ldDTVx _ | .ldSTVx _ | .addI _ | .ldF _ | .ldB _ | .storeRegs _ | .loadRegs _ => true

/-- The glyph of digit 0 is fixed: bytes 0 to 4 are F0 90 90 90 F0 (R43, R63). -/
def glyphZeroFixed (font : Vector Byte 80) : Bool :=
  (List.range 5).map (fun k => font.toList.getD k 0) == [0xF0, 0x90, 0x90, 0x90, 0xF0]

/-- Each glyph byte holds a 4-pixel row in its high bits, and its bits 3..0 are zero (R63). -/
def glyphLowBitsZero (font : Vector Byte 80) : Bool :=
  font.toList.all (fun b => b &&& 0x0F == 0)

/-- The legal values of the construction arguments (R43). Both profiles, both policies and both values of
CLS_SETS_DRAWN are legal; only FONT has values that are not. -/
def Config.wellFormed (c : Config) : Bool :=
  glyphZeroFixed c.font && glyphLowBitsZero c.font

end Sys2Proof
end

