-- ==== Sys2Proof/Decode.lean ====
section
/-! DEFINITION. The instruction encoding: the fields of a word (R91), the opcode map (R96), the decoder (R95, R98), the
encoder, and the word's bytes (R67). -/

namespace Sys2Proof

/-! ### The fields of an opcode (R91) -/

/-- X = op[11:8]. -/
def opX (op : Opcode) : Reg := (op.extractLsb' 8 4).toFin

/-- Y = op[7:4]. -/
def opY (op : Opcode) : Reg := (op.extractLsb' 4 4).toFin

/-- N = op[3:0]. -/
def opN (op : Opcode) : Nat := (op.extractLsb' 0 4).toNat

/-- NN = op[7:0]. -/
def opNN (op : Opcode) : Byte := op.extractLsb' 0 8

/-- NNN = op[11:0]. -/
def opNNN (op : Opcode) : Addr := op.extractLsb' 0 12

/-- A register number in the X field: X<<8. -/
def putX (x : Reg) : Opcode := BitVec.ofNat 16 x.val <<< 8

/-- A register number in the Y field: Y<<4. -/
def putY (y : Reg) : Opcode := BitVec.ofNat 16 y.val <<< 4

/-- A sprite height in the N field. -/
def putN (n : Nat) : Opcode := (BitVec.ofNat 4 n).setWidth 16

/-- A byte in the NN field. -/
def putNN (nn : Byte) : Opcode := nn.setWidth 16

/-- An address in the NNN field. -/
def putNNN (nnn : Addr) : Opcode := nnn.setWidth 16

/-! ### The opcode map (R96) -/

/-- One row of the opcode map: the fixed bits under their mask, and the instruction its fields make. -/
structure OpcodeRow where
  fixed : Opcode
  mask  : Opcode
  build : Opcode → Instr

/-- `(op AND mask) = match` (R95). -/
def rowMatches (op : Opcode) (r : OpcodeRow) : Bool :=
  op &&& r.mask == r.fixed

/-- Rows 1 to 18 of R96: groups 0 to 8. -/
def opcodeRows0to8 : List OpcodeRow :=
  [ ⟨0x00E0, 0xFFFF, fun _ => .cls⟩,
    ⟨0x00EE, 0xFFFF, fun _ => .ret⟩,
    ⟨0x1000, 0xF000, fun op => .jp (opNNN op)⟩,
    ⟨0x2000, 0xF000, fun op => .call (opNNN op)⟩,
    ⟨0x3000, 0xF000, fun op => .seImm (opX op) (opNN op)⟩,
    ⟨0x4000, 0xF000, fun op => .sneImm (opX op) (opNN op)⟩,
    ⟨0x5000, 0xF00F, fun op => .seReg (opX op) (opY op)⟩,
    ⟨0x6000, 0xF000, fun op => .ldImm (opX op) (opNN op)⟩,
    ⟨0x7000, 0xF000, fun op => .addImm (opX op) (opNN op)⟩ ] ++
  [ ⟨0x8000, 0xF00F, fun op => .ldReg (opX op) (opY op)⟩,
    ⟨0x8001, 0xF00F, fun op => .orReg (opX op) (opY op)⟩,
    ⟨0x8002, 0xF00F, fun op => .andReg (opX op) (opY op)⟩,
    ⟨0x8003, 0xF00F, fun op => .xorReg (opX op) (opY op)⟩,
    ⟨0x8004, 0xF00F, fun op => .addReg (opX op) (opY op)⟩,
    ⟨0x8005, 0xF00F, fun op => .subReg (opX op) (opY op)⟩,
    ⟨0x8006, 0xF00F, fun op => .shr (opX op) (opY op)⟩,
    ⟨0x8007, 0xF00F, fun op => .subn (opX op) (opY op)⟩,
    ⟨0x800E, 0xF00F, fun op => .shl (opX op) (opY op)⟩ ]

/-- Rows 19 to 34 of R96: groups 9 to F. -/
def opcodeRows9toF : List OpcodeRow :=
  [ ⟨0x9000, 0xF00F, fun op => .sneReg (opX op) (opY op)⟩,
    ⟨0xA000, 0xF000, fun op => .ldI (opNNN op)⟩,
    ⟨0xB000, 0xF000, fun op => .jpV0 (opNNN op)⟩,
    ⟨0xC000, 0xF000, fun op => .rnd (opX op) (opNN op)⟩,
    ⟨0xD000, 0xF000, fun op => .drw (opX op) (opY op) (opN op)⟩,
    ⟨0xE09E, 0xF0FF, fun op => .skp (opX op)⟩,
    ⟨0xE0A1, 0xF0FF, fun op => .sknp (opX op)⟩ ] ++
  [ ⟨0xF007, 0xF0FF, fun op => .ldVxDT (opX op)⟩,
    ⟨0xF00A, 0xF0FF, fun op => .ldVxK (opX op)⟩,
    ⟨0xF015, 0xF0FF, fun op => .ldDTVx (opX op)⟩,
    ⟨0xF018, 0xF0FF, fun op => .ldSTVx (opX op)⟩,
    ⟨0xF01E, 0xF0FF, fun op => .addI (opX op)⟩,
    ⟨0xF029, 0xF0FF, fun op => .ldF (opX op)⟩,
    ⟨0xF033, 0xF0FF, fun op => .ldB (opX op)⟩,
    ⟨0xF055, 0xF0FF, fun op => .storeRegs (opX op)⟩,
    ⟨0xF065, 0xF0FF, fun op => .loadRegs (opX op)⟩ ]

/-- The opcode map of R96, its 34 rows in the table's order. -/
def opcodeTable : List OpcodeRow :=
  opcodeRows0to8 ++ opcodeRows9toF

/-! ### The decoder (R95, R98) -/

/-- Why the decoder refuses. `invalidOpcode`: no row of R96 matches the word (R97). `truncated`: fewer bytes than one
instruction (R90); a fetch never raises it, since it always reads two bytes. -/
inductive DecodeReject where
  | invalidOpcode (op : Opcode)
  | truncated (bytesLeft : Nat)
  deriving DecidableEq, Repr

/-- The decoder of one word: the one row that matches, or the refusal (R95, R97, R98). -/
def decode (op : Opcode) : Except DecodeReject Instr :=
  match opcodeTable.find? (rowMatches op) with
  | some r => .ok (r.build op)
  | none => .error (.invalidOpcode op)

/-- A word from its two bytes, high byte first (R67). -/
def wordOfBytes (hi lo : Byte) : Opcode :=
  hi ++ lo

/-- The high byte of a word, which stands at the lower address (R67). -/
def highByte (op : Opcode) : Byte := op.extractLsb' 8 8

/-- The low byte of a word, which stands at the higher address (R67). -/
def lowByte (op : Opcode) : Byte := op.extractLsb' 0 8

/-- The decoder of a byte sequence: the first instruction and the bytes after it. -/
def decodeBytes : List Byte → Except DecodeReject (Instr × List Byte)
  | hi :: lo :: rest =>
    match decode (wordOfBytes hi lo) with
    | .ok i => .ok (i, rest)
    | .error e => .error e
  | [_] => .error (.truncated 1)
  | [] => .error (.truncated 0)

/-! ### The encoder -/

/-- The word of an instruction, from each rule's "Encoding" line. -/
def encode : Instr → Opcode
  | .cls => 0x00E0
  | .ret => 0x00EE
  | .jp nnn => 0x1000 ||| putNNN nnn
  | .call nnn => 0x2000 ||| putNNN nnn
  | .seImm x nn => 0x3000 ||| putX x ||| putNN nn
  | .sneImm x nn => 0x4000 ||| putX x ||| putNN nn
  | .seReg x y => 0x5000 ||| putX x ||| putY y
  | .ldImm x nn => 0x6000 ||| putX x ||| putNN nn
  | .addImm x nn => 0x7000 ||| putX x ||| putNN nn
  | .ldReg x y => 0x8000 ||| putX x ||| putY y
  | .orReg x y => 0x8001 ||| putX x ||| putY y
  | .andReg x y => 0x8002 ||| putX x ||| putY y
  | .xorReg x y => 0x8003 ||| putX x ||| putY y
  | .addReg x y => 0x8004 ||| putX x ||| putY y
  | .subReg x y => 0x8005 ||| putX x ||| putY y
  | .shr x y => 0x8006 ||| putX x ||| putY y
  | .subn x y => 0x8007 ||| putX x ||| putY y
  | .shl x y => 0x800E ||| putX x ||| putY y
  | .sneReg x y => 0x9000 ||| putX x ||| putY y
  | .ldI nnn => 0xA000 ||| putNNN nnn
  | .jpV0 nnn => 0xB000 ||| putNNN nnn
  | .rnd x nn => 0xC000 ||| putX x ||| putNN nn
  | .drw x y n => 0xD000 ||| putX x ||| putY y ||| putN n
  | .skp x => 0xE09E ||| putX x
  | .sknp x => 0xE0A1 ||| putX x
  | .ldVxDT x => 0xF007 ||| putX x
  | .ldVxK x => 0xF00A ||| putX x
  | .ldDTVx x => 0xF015 ||| putX x
  | .ldSTVx x => 0xF018 ||| putX x
  | .addI x => 0xF01E ||| putX x
  | .ldF x => 0xF029 ||| putX x
  | .ldB x => 0xF033 ||| putX x
  | .storeRegs x => 0xF055 ||| putX x
  | .loadRegs x => 0xF065 ||| putX x

/-- The bytes of an instruction in memory order (R67). -/
def encodeBytes (i : Instr) : List Byte :=
  [highByte (encode i), lowByte (encode i)]

/-! ### The host's table words -/

/-- The word that `nbits` bits of `w` give, every bit above them 0. -/
def tableWord (nbits w : Nat) : Opcode :=
  BitVec.ofNat 16 (w % 2 ^ nbits)

/-- The instruction the decoder reads from a word numbered as spec/opcode_table.json numbers it: the word's two bytes,
laid out as fetch reads them (R67), given to the decoder. Log entry 13. -/
def decodeTableWord (nbits w : Nat) : Option Instr :=
  match decodeBytes [highByte (tableWord nbits w), lowByte (tableWord nbits w)] with
  | .ok (i, _) => some i
  | .error _ => none

end Sys2Proof
end

