-- ==== Sys2Proof/Machine/State.lean ====
section
/-! DEFINITION. The State Container (R20 to R47): every piece of state the spec gives the machine, and its value after
reset. -/

namespace Sys2Proof.Machine

/-- The fault record of R44 and R250. A faulting step writes it into State.fault, and nothing clears it (R251). -/
inductive FaultRecord where
  /-- Cause code 1: the fetched opcode matches no row of R96 (R252). -/
  | invalidOpcode (op : Opcode) (pc : Addr)
  /-- Cause code 2: 2NNN with eight return addresses held, under bounded (R253). -/
  | stackOverflow (pc : Addr)
  /-- Cause code 3: 00EE with none held, under bounded (R254). -/
  | stackUnderflow (pc : Addr)
  deriving DecidableEq, Repr

/-- Why a step answers no next state. -/
inductive Fault where
  /-- Raised by `step` alone, on a state whose fault record is set: the core is halted and no instruction executes
  (R120, R251, I16). Safe: the hardware too takes no step there. Log entry 5. -/
  | halted (r : FaultRecord)
  deriving DecidableEq, Repr

/-- Why the model refuses an instruction. -/
inductive Refusal where
  /-- The instruction has no meaning in the model yet. Raised by no arm of exec: every row is modelled. Safe. -/
  | notModelled (mnemonic : String)
  deriving DecidableEq, Repr

/-- The contents of the 4096 bytes as (address, byte) cells in the canonical form Memory.wf (Machine/Ops.lean): addresses
strictly rising, and no cell equal to what an unlisted address reads as (log entry 4). -/
abbrev Memory := List Host.Cell

/-- The State Container. -/
structure State where
  /-- V0 to VF (R20). -/
  v       : Vector Byte 16
  /-- I: 16-bit storage of a 12-bit address (R24; log entry 6). -/
  i       : BitVec 16
  /-- PC (R26). -/
  pc      : Addr
  /-- The 4096 bytes (R60). -/
  mem     : Memory
  /-- The 12-slot backing store of the call stack (R30). -/
  stack   : Vector (BitVec 16) 12
  /-- SP, 0 to 8 (R31, R32; log entry 7). -/
  sp      : Fin 9
  /-- The delay timer DT (R34). -/
  dt      : Byte
  /-- The sound timer ST (R35). -/
  st      : Byte
  /-- The key state K (R36). -/
  keys    : Vector Bool 16
  /-- The display rows D (R40). -/
  display : Vector RowBits 32
  /-- The draw hint (R44, R128). -/
  drawn   : Bool
  /-- The sticky fault status (R44, R251). -/
  fault   : Option FaultRecord
  /-- The construction arguments, fixed for the life of the machine (R43). -/
  cfg     : Config
  /-- THE MODEL'S OWN: how many CXNN draws have been made; it picks the next free value (log entry 1). -/
  draws   : Nat
  deriving DecidableEq, Repr

/-- What a step, or the meaning of an instruction, answers. -/
abbrev Result := Host.Outcome State Fault Refusal

/-- The state of a freshly built machine with the given configuration and memory (R47, R284 step 5). -/
def State.fresh (cfg : Config) (mem : Memory) : State :=
  { v := Vector.replicate 16 0
    i := 0
    pc := 0x200
    mem := mem
    stack := Vector.replicate 12 0
    sp := 0
    dt := 0
    st := 0
    keys := Vector.replicate 16 false
    display := Vector.replicate 32 0
    drawn := false
    fault := none
    cfg := cfg
    draws := 0 }

/-- The machine right after reset: construction with an empty image and the reset configuration (R47, R284 to R287).
Memory lists nothing: an unlisted address reads as the default FONT or zero. Log entries 2, 3, 4. -/
def State.reset : State :=
  State.fresh Config.reset []

end Sys2Proof.Machine
end

