-- ==== Sys2Proof/Machine/Ops.lean ====
section
/-! DEFINITION. The named operations over memory, registers, stack and display, the fetch, the commit of a step, and
taking a fault. Every meaning is written over these. -/

namespace Sys2Proof.Machine

/-! ### Arithmetic (00_scope.md section 5) -/

/-- `u8(v) = v mod 256`. -/
def u8 (n : Nat) : Byte := BitVec.ofNat 8 n

/-- `a12(v) = v mod 4096`, the source's "masked to 12 bits". -/
def a12 (n : Nat) : Addr := BitVec.ofNat 12 n

/-! ### Memory (R60, R66 to R71) -/

/-- What an unlisted address reads as: the memory's contents at reset, which are the default FONT at 0..79 and zero
elsewhere (R62, R285, R286). Log entry 4. -/
def unlistedByte (a : Nat) : Byte :=
  Config.defaultFontBytes.getD a 0

/-- The byte at an address. -/
def memRead : Memory → Nat → Byte
  | [], a => unlistedByte a
  | (k, b) :: rest, a => if k = a then b else memRead rest a

/-- List a byte at an address, at its place among rising addresses. -/
def memInsert : Memory → Nat → Byte → Memory
  | [], a, b => [(a, b)]
  | (k, c) :: rest, a, b =>
    if a < k then (a, b) :: (k, c) :: rest
    else if a = k then (a, b) :: rest
    else (k, c) :: memInsert rest a b

/-- Write one byte, keeping the canonical form: the addresses stay strictly rising, and writing the value that an
unlisted address reads as removes the cell. -/
def memWrite (m : Memory) (a : Nat) (b : Byte) : Memory :=
  if b = unlistedByte a then m.filter (fun c => c.1 != a) else memInsert m a b

/-- The canonical form of a memory: addresses strictly rising and inside the 4096 bytes (R60), and no cell equal to
what its address reads as when unlisted. -/
abbrev Memory.wf (m : Memory) : Prop :=
  m.Pairwise (fun c d => c.1 < d.1) ∧ ∀ c ∈ m, c.1 < 4096 ∧ c.2 ≠ unlistedByte c.1

/-- Write consecutive bytes from an address upwards (the glyph table and the program image, R285, R287). -/
def memWriteList : Memory → Nat → List Byte → Memory
  | m, _, [] => m
  | m, a, b :: bs => memWriteList (memWrite m a b) (a + 1) bs

/-- `MemRead(a, 1)`. -/
def readByte (s : State) (a : Addr) : Byte :=
  memRead s.mem a.toNat

/-- `MemWrite(a, 1, b)`. -/
def writeByte (s : State) (a : Addr) (b : Byte) : State :=
  { s with mem := memWrite s.mem a.toNat b }

/-! ### Registers -/

/-- Read `V[x]`. -/
def getV (s : State) (x : Reg) : Byte := s.v[x]

/-- `V[x] <- b`. -/
def setV (s : State) (x : Reg) (b : Byte) : State :=
  { s with v := s.v.set x b }

/-- `I <- w`. -/
def setI (s : State) (w : BitVec 16) : State := { s with i := w }

/-- `DT <- b`. -/
def setDT (s : State) (b : Byte) : State := { s with dt := b }

/-- `ST <- b`. -/
def setST (s : State) (b : Byte) : State := { s with st := b }

/-- Whether key `k` is held: `K[k]` (R36). -/
def held (s : State) (k : Key) : Bool := s.keys[k]

/-! ### The display (R40) -/

/-- Display row `r` of a display; the rows named are always 0..31 (log entry 12). -/
def rowAt (d : Vector RowBits 32) (r : Nat) : RowBits := d[r]?.getD 0

/-- Replace display row `r`; the rows named are always 0..31 (log entry 12). -/
def putRow (d : Vector RowBits 32) (r : Nat) (w : RowBits) : Vector RowBits 32 := d.setIfInBounds r w

/-- The pixel at row `r`, column `c`: the bit `D[r][63 - c]` (R40). -/
def pixel (d : Vector RowBits 32) (r : Fin 32) (c : Fin 64) : Bool := d[r].getLsbD (63 - c.val)

/-! ### The free draw (R172) -/

/-- `draw_u8()`: the next free value. Log entry 1. -/
def drawByte (s : State) : Byte := Config.randomByte s.draws

/-- The state after one draw. -/
def afterDraw (s : State) : State := { s with draws := s.draws + 1 }

/-! ### Fetch (R67, R68, R121) -/

/-- The address of an instruction's second byte, wrapped within the 12-bit space (R68). -/
def secondByteAddr (s : State) : Addr := a12 (s.pc.toNat + 1)

/-- The opcode at PC: two bytes, big-endian (R121). -/
def fetchOpcode (s : State) : Opcode :=
  wordOfBytes (readByte s s.pc) (readByte s (secondByteAddr s))

/-- Store a word where the next fetch reads it, and clear the sticky fault so that the next step fetches. This is no
operation of the hardware: it stands for loading a program (log entry 9). -/
def placeOpcode (s : State) (op : Opcode) : State :=
  { writeByte (writeByte s s.pc (highByte op)) (secondByteAddr s) (lowByte op) with fault := none }

/-! ### Next-PC and commit (R123, R126, R128) -/

/-- The default next-PC: `pc + 2`, an unreduced integer (R123). -/
def seqNext (s : State) : Nat := s.pc.toNat + 2

/-- `PC <- a12(next)` (R126) and the draw hint (R128). -/
def commit (next : Nat) (drew : Bool) (s : State) : State :=
  { s with pc := a12 next, drawn := drew }

/-- The end of a handler that is no draw and sets `next`. -/
def finishAt (next : Nat) (s : State) : Result :=
  .next (commit next false s)

/-- The end of a handler that is no draw and leaves `next` at `pc + 2` (R132). -/
def advance (s : State) : Result :=
  finishAt (seqNext s) s

/-- A skip: `next <- next + 2` when the condition holds (R140). -/
def skipIf (c : Bool) (s : State) : Result :=
  finishAt (if c then seqNext s + 2 else seqNext s) s

/-! ### Taking a fault (R129, R255, R256) -/

/-- A fault's entry: the record is set and nothing else changes (R129). There is no vector and no saved state (R256).
No instruction returns from it (R257). Log entry 5. -/
def raiseFault (r : FaultRecord) (s : State) : Result :=
  .next { s with fault := some r }

/-- What a fetched word that no row matches does: InvalidOpcode(op, pc) (R124, R252). -/
def raiseInvalidOpcode (s : State) : Result :=
  raiseFault (.invalidOpcode (fetchOpcode s) s.pc) s

/-! ### The call stack (R30 to R33) -/

/-- The value 2NNN pushes: `a12(pc + 2)` in a 16-bit slot (R33). -/
def returnAddress (s : State) : BitVec 16 := (a12 (seqNext s)).setWidth 16

/-- SP after a push: `SP + 1` (R31), or `(SP + 1) mod 8` (R32). -/
def spAfterPush (s : State) : Fin 9 :=
  match s.cfg.stackPolicy with
  | .bounded => Fin.ofNat 9 (s.sp.val + 1)
  | .wrap8 => Fin.ofNat 9 ((s.sp.val + 1) % 8)

/-- SP after a pop: `SP - 1` (R31), or `(SP + 8 - 1) mod 8` (R32). -/
def spAfterPop (s : State) : Fin 9 :=
  match s.cfg.stackPolicy with
  | .bounded => Fin.ofNat 9 (s.sp.val - 1)
  | .wrap8 => Fin.ofNat 9 ((s.sp.val + 8 - 1) % 8)

/-- Whether a push overflows: bounded and SP = 8 (R31). Under wrap8 none does (R32). -/
def pushOverflows (s : State) : Bool :=
  s.cfg.stackPolicy == .bounded && s.sp == 8

/-- Whether a pop underflows: bounded and SP = 0 (R31). Under wrap8 none does (R32). -/
def popUnderflows (s : State) : Bool :=
  s.cfg.stackPolicy == .bounded && s.sp == 0

/-- The slot `stack[k]`. -/
def stackSlot (s : State) (k : Fin 9) : BitVec 16 := s.stack[k.val]

/-- `stack[SP] <- a`, then SP moves up (R31, R32). -/
def pushed (s : State) (a : BitVec 16) : State :=
  { s with stack := s.stack.set s.sp.val a, sp := spAfterPush s }

/-- SP moves down (R31, R32); the popped slot keeps its contents. -/
def popped (s : State) : State := { s with sp := spAfterPop s }

/-- What Pop returns: the slot at the SP it leaves (R31, R32). -/
def poppedAddress (s : State) : BitVec 16 := stackSlot s (spAfterPop s)

end Sys2Proof.Machine
end

