-- ==== Sys2Proof/Machine/Operands.lean ====
section
/-! DEFINITION. The operand forms and addressing modes (R94, R196, R211, R230), and the block copies over them. -/

namespace Sys2Proof.Machine

/-- A key operand: `V[X] mod 16` (R230). -/
def keyOperand (s : State) (x : Reg) : Key := Fin.ofNat 16 (getV s x).toNat

/-- The absolute mode (R196): NNN. -/
def absolute (nnn : Addr) : Nat := nnn.toNat

/-- The mode absolute + V0, unreduced: `NNN + V[0]` (R148, R196). -/
def absolutePlusV0 (s : State) (nnn : Addr) : Nat := nnn.toNat + (getV s 0).toNat

/-- The I-indirect mode with index `k`: `a12(I + k)` (R69, R196). -/
def indexAddr (s : State) (k : Nat) : Addr := a12 (s.i.toNat + k)

/-- The glyph mode: `5 * V[X]`, at most 1275 (R192, R196). -/
def glyphAddr (s : State) (x : Reg) : BitVec 16 := BitVec.ofNat 16 ((getV s x).toNat * 5)

/-- I advanced by an offset: `a12(I + n)`, in I's 16-bit storage (R191, R194, R195). -/
def advancedIndex (s : State) (n : Nat) : BitVec 16 := (a12 (s.i.toNat + n)).setWidth 16

/-- I after the copy of FX55 or FX65: unchanged under legacy, `a12(I + X + 1)` under modern (R194, R195). -/
def indexAfterBlock (x : Reg) (s : State) : BitVec 16 :=
  match s.cfg.memIncProfile with
  | .legacy => s.i
  | .modern => advancedIndex s (x.val + 1)

/-- What FX55 and FX65 do to I after their copy (R194, R195). -/
def bumpIndex (x : Reg) (s : State) : State := setI s (indexAfterBlock x s)

/-- The source of a shift: V[Y] under legacy, V[X] under modern (R94, R169, R171). -/
def shiftSource (s : State) (x y : Reg) : Byte :=
  match s.cfg.shiftProfile with
  | .legacy => getV s y
  | .modern => getV s x

/-- The registers after a shift's result is written: V[Y] then V[X] under legacy, V[X] alone under modern
(R169, R171). -/
def shiftedRegs (s : State) (x y : Reg) (r : Byte) : Vector Byte 16 :=
  match s.cfg.shiftProfile with
  | .legacy => (s.v.set y r).set x r
  | .modern => s.v.set x r

/-- Write a shift's result (R169, R171). -/
def shiftWrite (s : State) (x y : Reg) (r : Byte) : State := { s with v := shiftedRegs s x y r }

/-- The lowest-numbered held key, if any is held (R233). -/
def lowestHeld (s : State) : Option Key := (List.finRange 16).find? (held s)

/-! ### Decimal digits (R193) -/

/-- The hundreds digit: `v div 100`. -/
def hundreds (b : Byte) : Byte := u8 (b.toNat / 100)

/-- The tens digit: `(v div 10) mod 10`. -/
def tens (b : Byte) : Byte := u8 (b.toNat / 10 % 10)

/-- The ones digit: `v mod 10`. -/
def ones (b : Byte) : Byte := u8 (b.toNat % 10)

/-! ### Block copies (R194, R195), register by register in ascending order -/

/-- `for k in 0..count-1: MemWrite(a12(I + k), 1, V[k])` (R194). -/
def storeBlock (s : State) : Nat → State
  | 0 => s
  | k + 1 => writeByte (storeBlock s k) (indexAddr s k) (getV s (Fin.ofNat 16 k))

/-- `for k in 0..count-1: V[k] <- MemRead(a12(I + k), 1)` (R195). -/
def loadBlock (s : State) : Nat → State
  | 0 => s
  | k + 1 => setV (loadBlock s k) (Fin.ofNat 16 k) (readByte s (indexAddr s k))

/-! ### The sprite (R211, R212) -/

/-- The anchor column: `V[X] mod 64` (R211). -/
def anchorColumn (s : State) (x : Reg) : Nat := (getV s x).toNat % 64

/-- The anchor row: `V[Y] mod 32` (R211). -/
def anchorRow (s : State) (y : Reg) : Nat := (getV s y).toNat % 32

/-- The number of rows drawn: `min(N, 32 - y0)` (R211). -/
def drawnHeight (n y0 : Nat) : Nat := min n (32 - y0)

/-- A sprite byte placed in its row: `(zext_64(b) << 56) >> x0`; bits past column 63 are lost (R212). -/
def spriteMask (b : Byte) (x0 : Nat) : RowBits := (b.setWidth 64 <<< 56) >>> x0

/-- The mask of sprite row `r`: the byte at `a12(I + r)` placed at column `x0` (R212). -/
def spriteRow (s : State) (x0 r : Nat) : RowBits := spriteMask (readByte s (indexAddr s r)) x0

end Sys2Proof.Machine
end

