-- ==== Sys2Proof/Machine/Flags.lean ====
section
/-! DEFINITION. The flag computations (R160, R167 to R171, R212) and the write of VF (R22). -/

namespace Sys2Proof.Machine

/-- A flag's value in VF: 1 or 0. -/
def flagByte (c : Bool) : Byte := if c then 1 else 0

/-- Write the flag. Meanings apply it last, over the result's write (R22). -/
def setFlag (c : Bool) (s : State) : State := setV s regVF (flagByte c)

/-- Carry out of bit 7: `a + b > 255` (R167). -/
def addCarry (a b : Byte) : Bool := decide (a.toNat + b.toNat > 255)

/-- No borrow in `a - b`: `a >= b` (R168, R170). -/
def notBorrow (a b : Byte) : Bool := decide (a.toNat ≥ b.toNat)

/-- The wrapped sum `u8(a + b)` (R162, R167). -/
def addWrap (a b : Byte) : Byte := u8 (a.toNat + b.toNat)

/-- The wrapped difference `u8(a - b + 256)` (R168, R170). -/
def subWrap (a b : Byte) : Byte := u8 (a.toNat + 256 - b.toNat)

/-- `v >> 1` (R169). -/
def shiftedRight (b : Byte) : Byte := b >>> 1

/-- `u8(v << 1)` (R171). -/
def shiftedLeft (b : Byte) : Byte := b <<< 1

/-- The bit a right shift pushes out: bit 0 (R169). -/
def bitOutRight (b : Byte) : Bool := b.getLsbD 0

/-- The bit a left shift pushes out: bit 7 (R171). -/
def bitOutLeft (b : Byte) : Bool := b.getLsbD 7

/-- Whether a row's mask turns a set pixel off: `(D[r] AND m) != 0` (R212). -/
def rowCollides (row m : RowBits) : Bool := row &&& m != 0

end Sys2Proof.Machine
end

