-- ==== Sys2Proof/Machine/Alu.lean ====
section
/-! DEFINITION. The meanings of 42_alu.md: register loads, arithmetic, logic, shifts and the random draw. Every operand is
read from the state before any write (R7), and VF is written last (R22). -/

namespace Sys2Proof.Machine

/-- 6XNN (R161): `V[X] <- NN`. -/
def execLdImm (x : Reg) (nn : Byte) (s : State) : Result :=
  advance (setV s x nn)

/-- 7XNN (R162): `V[X] <- u8(V[X] + NN)`; no flag. -/
def execAddImm (x : Reg) (nn : Byte) (s : State) : Result :=
  advance (setV s x (addWrap (getV s x) nn))

/-- 8XY0 (R163): `V[X] <- V[Y]`. -/
def execLdReg (x y : Reg) (s : State) : Result :=
  advance (setV s x (getV s y))

/-- 8XY1 (R164): `V[X] <- V[X] OR V[Y]`; no flag. -/
def execOrReg (x y : Reg) (s : State) : Result :=
  advance (setV s x (getV s x ||| getV s y))

/-- 8XY2 (R165): `V[X] <- V[X] AND V[Y]`; no flag. -/
def execAndReg (x y : Reg) (s : State) : Result :=
  advance (setV s x (getV s x &&& getV s y))

/-- 8XY3 (R166): `V[X] <- V[X] XOR V[Y]`; no flag. -/
def execXorReg (x y : Reg) (s : State) : Result :=
  advance (setV s x (getV s x ^^^ getV s y))

/-- 8XY4 (R167): the wrapped sum, then VF = carry. -/
def execAddReg (x y : Reg) (s : State) : Result :=
  advance (setFlag (addCarry (getV s x) (getV s y)) (setV s x (addWrap (getV s x) (getV s y))))

/-- 8XY5 (R168): `V[X] - V[Y]`, then VF = no borrow. -/
def execSubReg (x y : Reg) (s : State) : Result :=
  advance (setFlag (notBorrow (getV s x) (getV s y)) (setV s x (subWrap (getV s x) (getV s y))))

/-- 8XY6 (R169): the source shifted right by one, then VF = the bit shifted out. -/
def execShr (x y : Reg) (s : State) : Result :=
  advance (setFlag (bitOutRight (shiftSource s x y)) (shiftWrite s x y (shiftedRight (shiftSource s x y))))

/-- 8XY7 (R170): `V[Y] - V[X]`, then VF = no borrow. -/
def execSubn (x y : Reg) (s : State) : Result :=
  advance (setFlag (notBorrow (getV s y) (getV s x)) (setV s x (subWrap (getV s y) (getV s x))))

/-- 8XYE (R171): the source shifted left by one, then VF = the bit shifted out. -/
def execShl (x y : Reg) (s : State) : Result :=
  advance (setFlag (bitOutLeft (shiftSource s x y)) (shiftWrite s x y (shiftedLeft (shiftSource s x y))))

/-- CXNN (R172): `V[X] <- draw AND NN`, the draw a free value (log entry 1). -/
def execRnd (x : Reg) (nn : Byte) (s : State) : Result :=
  advance (setV (afterDraw s) x (drawByte s &&& nn))

end Sys2Proof.Machine
end

