-- ==== Sys2Proof/Machine/ControlFlow.lean ====
section
/-! DEFINITION. The meanings of 41_control_flow.md: jumps, call, return and skips. -/

namespace Sys2Proof.Machine

/-- 00EE (R141): `next <- Pop()`, or StackUnderflow(pc) under bounded with SP = 0 (R254). -/
def execRet (s : State) : Result :=
  if popUnderflows s then raiseFault (.stackUnderflow s.pc) s
  else finishAt (poppedAddress s).toNat (popped s)

/-- 1NNN (R142): `next <- NNN`. -/
def execJp (nnn : Addr) (s : State) : Result :=
  finishAt (absolute nnn) s

/-- 2NNN (R143): `Push(a12(pc + 2)); next <- NNN`, or StackOverflow(pc) under bounded with SP = 8 (R253). -/
def execCall (nnn : Addr) (s : State) : Result :=
  if pushOverflows s then raiseFault (.stackOverflow s.pc) s
  else finishAt (absolute nnn) (pushed s (returnAddress s))

/-- 3XNN (R144): skip if `V[X] = NN`. -/
def execSeImm (x : Reg) (nn : Byte) (s : State) : Result :=
  skipIf (getV s x == nn) s

/-- 4XNN (R145): skip if `V[X] != NN`. -/
def execSneImm (x : Reg) (nn : Byte) (s : State) : Result :=
  skipIf (getV s x != nn) s

/-- 5XY0 (R146): skip if `V[X] = V[Y]`. -/
def execSeReg (x y : Reg) (s : State) : Result :=
  skipIf (getV s x == getV s y) s

/-- 9XY0 (R147): skip if `V[X] != V[Y]`. -/
def execSneReg (x y : Reg) (s : State) : Result :=
  skipIf (getV s x != getV s y) s

/-- BNNN (R148): `next <- NNN + V[0]`, reduced only at commit. -/
def execJpV0 (nnn : Addr) (s : State) : Result :=
  finishAt (absolutePlusV0 s nnn) s

end Sys2Proof.Machine
end

