-- ==== Sys2Proof/Machine/Display.lean ====
section
/-! DEFINITION. The meanings of 44_display.md: clear and draw. -/

namespace Sys2Proof.Machine

/-- 00E0 (R210): every display row becomes 0. The draw hint is CLS_SETS_DRAWN (R128). -/
def execCls (s : State) : Result :=
  .next (commit (seqNext s) s.cfg.clsSetsDrawn { s with display := Vector.replicate 32 0 })

/-- The loop of R212 over the first `count` sprite rows: the display, and whether a set pixel was turned off. -/
def drawRows (s : State) (x0 y0 : Nat) : Nat → Vector RowBits 32 × Bool
  | 0 => (s.display, false)
  | r + 1 =>
    match drawRows s x0 y0 r with
    | (d, c) =>
      (putRow d (y0 + r) (rowAt d (y0 + r) ^^^ spriteRow s x0 r),
        c || rowCollides (rowAt d (y0 + r)) (spriteRow s x0 r))

/-- What DXYN draws: the loop over its `min(N, 32 - y0)` rows at its anchor (R211, R212). -/
def drawSprite (x y : Reg) (n : Nat) (s : State) : Vector RowBits 32 × Bool :=
  drawRows s (anchorColumn s x) (anchorRow s y) (drawnHeight n (anchorRow s y))

/-- DXYN (R212): the sprite XORed into the display, then VF = collision. The draw hint is set (R128). -/
def execDrw (x y : Reg) (n : Nat) (s : State) : Result :=
  .next (commit (seqNext s) true
    (setFlag (drawSprite x y n s).2 { s with display := (drawSprite x y n s).1 }))

end Sys2Proof.Machine
end

