-- ==== Sys2Proof/Machine/IndexMemory.lean ====
section
/-! DEFINITION. The meanings of 43_index_memory.md: the index register and the block transfers. -/

namespace Sys2Proof.Machine

/-- ANNN (R190): `I <- NNN`. -/
def execLdI (nnn : Addr) (s : State) : Result :=
  advance (setI s (nnn.setWidth 16))

/-- FX1E (R191): `I <- a12(I + V[X])`; VF is not written. -/
def execAddI (x : Reg) (s : State) : Result :=
  advance (setI s (advancedIndex s (getV s x).toNat))

/-- FX29 (R192): `I <- V[X] * 5`; V[X] is not reduced to a nibble. -/
def execLdF (x : Reg) (s : State) : Result :=
  advance (setI s (glyphAddr s x))

/-- FX33 (R193): the three decimal digits of V[X] at I, I+1 and I+2, hundreds first. -/
def execLdB (x : Reg) (s : State) : Result :=
  advance (writeByte (writeByte (writeByte s (indexAddr s 0) (hundreds (getV s x)))
    (indexAddr s 1) (tens (getV s x))) (indexAddr s 2) (ones (getV s x)))

/-- FX55 (R194): store V0..VX from I upwards, then move I as MEMINC_PROFILE says. -/
def execStoreRegs (x : Reg) (s : State) : Result :=
  advance (bumpIndex x (storeBlock s (x.val + 1)))

/-- FX65 (R195): load V0..VX from I upwards, then move I as MEMINC_PROFILE says. -/
def execLoadRegs (x : Reg) (s : State) : Result :=
  advance (bumpIndex x (loadBlock s (x.val + 1)))

end Sys2Proof.Machine
end

