-- ==== Sys2Proof/Machine/KeysTimers.lean ====
section
/-! DEFINITION. The meanings of 45_keys_timers.md: key skips, the key wait and the timer transfers. -/

namespace Sys2Proof.Machine

/-- EX9E (R231): skip if key `V[X] mod 16` is held. -/
def execSkp (x : Reg) (s : State) : Result :=
  skipIf (held s (keyOperand s x)) s

/-- EXA1 (R232): skip if key `V[X] mod 16` is not held. -/
def execSknp (x : Reg) (s : State) : Result :=
  skipIf (!held s (keyOperand s x)) s

/-- FX07 (R234): `V[X] <- DT`. -/
def execLdVxDT (x : Reg) (s : State) : Result :=
  advance (setV s x s.dt)

/-- FX0A (R233): V[X] takes the lowest held key; with none held, `next <- next - 2`, so the instruction runs again. -/
def execLdVxK (x : Reg) (s : State) : Result :=
  match lowestHeld s with
  | some k => advance (setV s x (BitVec.ofNat 8 k.val))
  | none => finishAt (seqNext s - 2) s

/-- FX15 (R235): `DT <- V[X]`. -/
def execLdDTVx (x : Reg) (s : State) : Result :=
  advance (setDT s (getV s x))

/-- FX18 (R236): `ST <- V[X]`. -/
def execLdSTVx (x : Reg) (s : State) : Result :=
  advance (setST s (getV s x))

end Sys2Proof.Machine
end

