-- ==== Sys2Proof/Machine/Step.lean ====
section
/-! DEFINITION. The step (R120 to R131) and the placing of a word where it fetches. -/

namespace Sys2Proof.Machine

/-- One Step of the core (R131): nothing on a halted core (R120, log entry 5); else fetch, decode, and either the
instruction's meaning or InvalidOpcode (R124). -/
def step (s : State) : Host.Outcome State Fault Refusal :=
  match s.fault with
  | some r => .fault (.halted r)
  | none =>
    match decode (fetchOpcode s) with
    | .ok i => exec i s
    | .error _ => raiseInvalidOpcode s

/-- The state with the given word stored at PC, so that the next step runs it. It stands for loading a program (log
entry 9). -/
def State.withFetchWord (s : State) (nbits w : Nat) : State :=
  placeOpcode s (tableWord nbits w)

end Sys2Proof.Machine
end

