-- ==== Sys2Proof/Machine/HostOps.lean ====
section
/-! DEFINITION. The host interface, which is the core's boundary (R50 to R52): construction (R284 to R288), SetKeys, the timer
advance (R262), the reads, and schedules of host operations. -/

namespace Sys2Proof.Machine

/-! ### Construct (R284 to R288) -/

/-- Why no machine exists after Construct. -/
inductive LoadError where
  /-- The image cannot be obtained (R288). -/
  | imageUnavailable
  /-- FONT is not a legal value (R43). Log entry 10. -/
  | illegalFont
  deriving DecidableEq, Repr

/-- The bytes of the image that are copied: the prefix that fits, at most 3584 (R287). -/
def fittingPrefix (image : List Byte) : List Byte := image.take 3584

/-- Memory at construction: the glyph table at 0 (R285), the image's prefix at 0x200 (R287), zero elsewhere (R286).
An unlisted address reads as the default FONT or zero, so the bytes of another FONT are written over it. -/
def constructMemory (font : Vector Byte 80) (image : List Byte) : Memory :=
  memWriteList (memWriteList [] 0 font.toList) 0x200 (fittingPrefix image)

/-- Construct (R284). `none` is an image that cannot be obtained. -/
def construct (image : Option (List Byte)) (cfg : Config) : Except LoadError State :=
  match image with
  | none => .error .imageUnavailable
  | some bytes =>
    if cfg.wellFormed then .ok (State.fresh cfg (constructMemory cfg.font bytes))
    else .error .illegalFont

/-! ### SetKeys and AdvanceTimers -/

/-- SetKeys (R36, R50): K overwritten wholesale. -/
def setKeys (keys : Vector Bool 16) (s : State) : State := { s with keys := keys }

/-- A timer after one advance: one less, stopping at zero (R262). -/
def timerTick (b : Byte) : Byte := if b.toNat > 0 then u8 (b.toNat - 1) else b

/-- AdvanceTimers (R262): each timer once; nothing else changes. -/
def advanceTimers (s : State) : State := { s with dt := timerTick s.dt, st := timerTick s.st }

/-! ### The reads (R50) -/

/-- ReadDisplay. -/
def readDisplay (s : State) : Vector RowBits 32 := s.display

/-- ReadDrawn. -/
def readDrawn (s : State) : Bool := s.drawn

/-- `sound_active = (ST != 0)` (R264). -/
def soundActive (s : State) : Bool := s.st != 0

/-- ReadTimers: DT, ST and sound_active. -/
def readTimers (s : State) : Byte × Byte × Bool := (s.dt, s.st, soundActive s)

/-- ReadFault. -/
def readFault (s : State) : Option FaultRecord := s.fault

/-- The cause code of the fault status: 0 means none (R250). -/
def causeCode : Option FaultRecord → Nat
  | none => 0
  | some (.invalidOpcode _ _) => 1
  | some (.stackOverflow _) => 2
  | some (.stackUnderflow _) => 3

/-- The opcode a fault record holds, where it holds one (R250). -/
def recordOpcode : Option FaultRecord → Option Opcode
  | some (.invalidOpcode op _) => some op
  | some (.stackOverflow _) => none
  | some (.stackUnderflow _) => none
  | none => none

/-- The pc a fault record holds (R250). -/
def recordPc : Option FaultRecord → Option Addr
  | some (.invalidOpcode _ pc) => some pc
  | some (.stackOverflow pc) => some pc
  | some (.stackUnderflow pc) => some pc
  | none => none

/-! ### The port list (R52), a renaming of the operations -/

/-- The output ports. The opcode and pc lines of fault_out are absent where the record has no such field (log entry
11). -/
structure OutputPorts where
  displayOut     : Vector RowBits 32
  drawnOut       : Bool
  soundActiveOut : Bool
  dtOut          : Byte
  stOut          : Byte
  faultTag       : BitVec 2
  faultOpcode    : Option Opcode
  faultPc        : Option Addr
  deriving DecidableEq, Repr

/-- What the output ports show. -/
def outputPorts (s : State) : OutputPorts :=
  { displayOut := readDisplay s
    drawnOut := readDrawn s
    soundActiveOut := soundActive s
    dtOut := s.dt
    stOut := s.st
    faultTag := BitVec.ofNat 2 (causeCode s.fault)
    faultOpcode := recordOpcode s.fault
    faultPc := recordPc s.fault }

/-- The 16 key lines of keys_in: bit k is key k (R52). -/
def keysOfPort (w : BitVec 16) : Vector Bool 16 := Vector.ofFn (fun k => w.getLsbD k.val)

/-! ### The spec's numbers for the configuration fields (R43) -/

/-- A profile's number: legacy 0, modern 1 (R43). -/
def profileCode : Profile → BitVec 1
  | .legacy => 0
  | .modern => 1

/-- A stack policy's number: bounded 0, wrap8 1 (R43). -/
def policyCode : StackPolicy → BitVec 1
  | .bounded => 0
  | .wrap8 => 1

/-! ### Schedules (R51) -/

/-- The host operations that act on a built machine. The reads change nothing and stand above as functions. -/
inductive HostOp where
  | setKeys (keys : Vector Bool 16)
  | step
  | advanceTimers
  deriving DecidableEq, Repr

/-- The Step operation on a machine: the next state, or no effect where there is none (R120). -/
def stepOp (s : State) : State :=
  match step s with
  | .next t => t
  | .fault _ => s
  | .refused _ => s

/-- One host operation, atomic (R51). -/
def hostOp : HostOp → State → State
  | .setKeys keys, s => setKeys keys s
  | .step, s => stepOp s
  | .advanceTimers, s => advanceTimers s

/-- A schedule: host operations one at a time, in the order the host picks (R51, R263). Log entry 8. -/
def runSchedule : List HostOp → State → State
  | [], s => s
  | op :: ops, s => runSchedule ops (hostOp op s)

end Sys2Proof.Machine
end

