-- ==== Sys2Proof/Safety.lean ====
section
/-! DEFINITION. What counts as a safe run, and the vocabulary of the statements: the invariants of the state, what a step
may change (footprints and frames), and what a fault leaves. -/

namespace Sys2Proof.Machine

/-! ### Invariants -/

/-- No fault is recorded, so a step executes (R120). -/
abbrev Running (s : State) : Prop := s.fault = none

/-- The invariant of every reachable state. -/
structure State.Inv (s : State) : Prop where
  /-- Memory keeps its canonical form inside the 4096 bytes (R60, log entry 4). -/
  memCanonical : Memory.wf s.mem
  /-- `I < 4096` (R25). -/
  indexInRange : s.i.toNat < 4096
  /-- Each stack slot holds a 12-bit address in its 16 bits (R30). -/
  slotsAreAddresses : ∀ k : Fin 12, s.stack[k].toNat < 4096
  /-- Slots 8 to 11 are never used and stay 0 (R31, R32, I18). -/
  upperSlotsZero : ∀ k : Fin 12, 8 ≤ k.val → s.stack[k] = 0
  /-- Under wrap8, SP is 0 to 7 (R32); under bounded its type holds it to 0 to 8 (R31). -/
  wrapPointer : s.cfg.stackPolicy = .wrap8 → s.sp.val < 8

/-- The recorded fault is precise (R255): PC still holds the faulting instruction's address, and the condition that
raised the fault (R252 to R254) can still be read from the state. -/
def FaultPrecise (s : State) : Prop :=
  match s.fault with
  | none => True
  | some (.invalidOpcode op pc) =>
    pc = s.pc ∧ fetchOpcode s = op ∧ decode op = .error (.invalidOpcode op)
  | some (.stackOverflow pc) =>
    pc = s.pc ∧ s.cfg.stackPolicy = .bounded ∧ s.sp = 8 ∧ ∃ nnn, decode (fetchOpcode s) = .ok (.call nnn)
  | some (.stackUnderflow pc) =>
    pc = s.pc ∧ s.cfg.stackPolicy = .bounded ∧ s.sp = 0 ∧ decode (fetchOpcode s) = .ok .ret

/-! ### Footprints and frames -/

/-- What an instruction may change besides PC and the draw hint. Each part not named stays out. -/
structure Footprint where
  /-- The general registers that may change. -/
  regs : Reg → Prop := fun _ => False
  /-- The bytes of memory that may change. -/
  bytes : Addr → Prop := fun _ => False
  /-- Whether I may change. -/
  index : Bool := false
  /-- Whether the call stack (slots and SP) may change. -/
  stack : Bool := false
  /-- Whether DT may change. -/
  delay : Bool := false
  /-- Whether ST may change. -/
  sound : Bool := false
  /-- Whether the display may change. -/
  display : Bool := false
  /-- Whether the count of free draws may change (the model's own, log entry 1). -/
  draws : Bool := false

/-- Everything outside the footprint is unchanged from `s` to `t`; keys, configuration and fault status always are. -/
structure Frame (f : Footprint) (s t : State) : Prop where
  regs : ∀ r, ¬ f.regs r → getV t r = getV s r
  bytes : ∀ a, ¬ f.bytes a → readByte t a = readByte s a
  index : f.index = false → t.i = s.i
  stack : f.stack = false → t.stack = s.stack ∧ t.sp = s.sp
  delay : f.delay = false → t.dt = s.dt
  sound : f.sound = false → t.st = s.st
  display : f.display = false → t.display = s.display
  draws : f.draws = false → t.draws = s.draws
  keys : t.keys = s.keys
  cfg : t.cfg = s.cfg
  fault : t.fault = s.fault

/-- `t` is where a completed instruction leaves PC and the draw hint (R126, R128). -/
def EndsAt (t : State) (next : Nat) (drew : Bool) : Prop :=
  t.pc = a12 next ∧ t.drawn = drew

/-- Instruction `i` completes from `s`, with nothing changed outside the footprint, PC at `next` (mod 4096) and the draw
hint `drew`, in a state of which `post` holds. -/
def Completes (i : Instr) (s : State) (f : Footprint) (next : Nat) (drew : Bool) (post : State → Prop) : Prop :=
  ∃ t, exec i s = .next t ∧ EndsAt t next drew ∧ Frame f s t ∧ post t

/-- Instruction `i` takes the fault `r` from `s`: the record is set and nothing else changes (R129). -/
def TakesFault (i : Instr) (s : State) (r : FaultRecord) : Prop :=
  exec i s = .next { s with fault := some r }

/-- The word `w` is the encoding of `i`, both ways. -/
def EncodesAs (i : Instr) (w : Opcode) : Prop :=
  encode i = w ∧ decode w = .ok i

/-! ### Instructions by what they write -/

/-- The general registers an instruction writes from state `s`, by the table of R23. -/
def writesReg (s : State) : Instr → Reg → Prop
  | .ldImm x _, r | .addImm x _, r | .ldReg x _, r | .orReg x _, r | .andReg x _, r | .xorReg x _, r
  | .rnd x _, r | .ldVxDT x, r => r = x
  | .ldVxK x, r => r = x ∧ ∃ k, held s k = true
  | .addReg x _, r | .subReg x _, r | .subn x _, r => r = x ∨ r = regVF
  | .shr x y, r | .shl x y, r =>
    match s.cfg.shiftProfile with
    | .modern => r = x ∨ r = regVF
    | .legacy => r = y ∨ r = x ∨ r = regVF
  | .drw _ _ _, r => r = regVF
  | .loadRegs x, r => r ≤ x
  | .cls, _ | .ret, _ | .jp _, _ | .call _, _ | .seImm _ _, _ | .sneImm _ _, _ | .seReg _ _, _
  | .sneReg _ _, _ | .ldI _, _ | .jpV0 _, _ | .skp _, _ | .sknp _, _ | .ldDTVx _, _ | .ldSTVx _, _
  | .addI _, _ | .ldF _, _ | .ldB _, _ | .storeRegs _, _ => False

/-- The six instructions that set a flag in VF whatever X is (R21). -/
def setsFlag : Instr → Bool
  | .addReg _ _ | .subReg _ _ | .shr _ _ | .subn _ _ | .shl _ _ | .drw _ _ _ => true
  | _ => false

/-- VF is the named destination: X = F, or the range V0..VX of FX65 with X = F (R21). -/
def namesVF : Instr → Bool
  | .ldImm x _ | .addImm x _ | .ldReg x _ | .orReg x _ | .andReg x _ | .xorReg x _ | .rnd x _
  | .ldVxDT x | .ldVxK x | .loadRegs x => x == regVF
  | _ => false

/-- The bytes of memory an instruction stores to from state `s`, by R193 and R194. -/
def writesByte (s : State) : Instr → Addr → Prop
  | .ldB _, a => ∃ k, k < 3 ∧ a = indexAddr s k
  | .storeRegs x, a => ∃ k, k ≤ x.val ∧ a = indexAddr s k
  | _, _ => False

/-- 00E0 or DXYN, the instructions that write the display (R41). -/
def writesDisplay : Instr → Bool
  | .cls | .drw _ _ _ => true
  | _ => false

/-- 2NNN or 00EE, the instructions that access the call stack (R30). -/
def accessesStack : Instr → Bool
  | .call _ | .ret => true
  | _ => false

/-- The instructions that may write I (R24). -/
def writesIndex (cfg : Config) : Instr → Bool
  | .ldI _ | .addI _ | .ldF _ => true
  | .storeRegs _ | .loadRegs _ => cfg.memIncProfile == .modern
  | _ => false

/-! ### Pixels, popped addresses and invalid words -/

/-- Whether DXYN's sprite has a 1 at row `r`, column `c` of the frame: the anchor is `(V[X] mod 64, V[Y] mod 32)`, bit 7
of a sprite byte is its leftmost pixel, and what falls outside the frame has no row or column here (R211, R212). -/
def spritePixel (s : State) (x y : Reg) (n : Nat) (r : Fin 32) (c : Fin 64) : Bool :=
  let x0 := (getV s x).toNat % 64
  let y0 := (getV s y).toNat % 32
  decide (y0 ≤ r.val ∧ r.val < y0 + n ∧ x0 ≤ c.val ∧ c.val < x0 + 8) &&
    (readByte s (indexAddr s (r.val - y0))).getLsbD (7 - (c.val - x0))

/-- The addresses that `n` pops in a row return, in the order they are popped. -/
def popAll : Nat → State → List (BitVec 16)
  | 0, _ => []
  | n + 1, s => poppedAddress s :: popAll n (popped s)

/-- The state after pushing the addresses of a list, first to last. -/
def pushAll : List (BitVec 16) → State → State
  | [], s => s
  | a :: as, s => pushAll as (pushed s a)

/-- The invalid words by group, the table of R97: `h` is op[15:12], `n` is op[3:0], `nn` is op[7:0]. -/
def invalidByGroup (op : Opcode) : Prop :=
  let h := op.toNat / 4096
  let n := op.toNat % 16
  let nn := op.toNat % 256
  (h = 0 ∧ op ≠ 0x00E0 ∧ op ≠ 0x00EE) ∨
  ((h = 5 ∨ h = 9) ∧ n ≠ 0) ∨
  (h = 8 ∧ n ∉ [0, 1, 2, 3, 4, 5, 6, 7, 0xE]) ∨
  (h = 0xE ∧ nn ∉ [0x9E, 0xA1]) ∨
  (h = 0xF ∧ nn ∉ [0x07, 0x0A, 0x15, 0x18, 0x1E, 0x29, 0x33, 0x55, 0x65])

end Sys2Proof.Machine
end

