-- ==== Sys2Proof/Certificates/Slice0/Obligations.lean ====
section
/-! DEFINITION. The statements for the provers. Completes, Frame, TakesFault and EncodesAs are defined in Safety.lean. -/

open Sys2Proof Sys2Proof.Machine

/-! ### Encoding -/

/-- O1. Decode and encode agree, for every well-formed instruction and every operand. -/
def Obligations.DecodeOfEncodeGivesTheInstruction : Prop :=
  ∀ i : Instr, i.wellFormed = true → decode (encode i) = .ok i

/-- O2. Each word has one meaning: a word that decodes is the encoding of what it decodes to, which is well formed. -/
def Obligations.EncodeOfDecodeGivesTheWord : Prop :=
  ∀ (op : Opcode) (i : Instr), decode op = .ok i → encode i = op ∧ i.wellFormed = true

/-- O3 (R98). Every word selects exactly one row of the opcode map, or is invalid. -/
def Obligations.EveryWordSelectsOneRowOrIsInvalid : Prop :=
  ∀ op : Opcode,
    (∃ r ∈ opcodeTable, rowMatches op r = true ∧ (∀ q ∈ opcodeTable, rowMatches op q = true → q = r) ∧
      decode op = .ok (r.build op)) ∨
    ((∀ r ∈ opcodeTable, rowMatches op r = false) ∧ decode op = .error (.invalidOpcode op))

/-- O4. The invalid words are exactly those of the spec's table of groups (30_encoding.md section 3; that literal digits
are fixed bits is the spec's own decision D9). -/
def Obligations.InvalidWordsAreThoseOfTheGroupTable : Prop :=
  ∀ op : Opcode, decode op = .error (.invalidOpcode op) ↔ invalidByGroup op

/-- O5. A few words of the spec's vectors (95_test_vectors.md) decode to the instructions they stand for. -/
def Obligations.SampleWordsDecodeToTheirInstructions : Prop :=
  decode 0x00EE = .ok .ret ∧ decode 0x2210 = .ok (.call 0x210) ∧ decode 0x3005 = .ok (.seImm 0 5) ∧
  decode 0x8126 = .ok (.shr 1 2) ∧ decode 0xA2F0 = .ok (.ldI 0x2F0) ∧ decode 0xD015 = .ok (.drw 0 1 5) ∧
  decode 0xE59E = .ok (.skp 5) ∧ decode 0xF365 = .ok (.loadRegs 3)

/-- O6 (R67). Fetch is big-endian: the byte at pc is the high byte, and the second byte's address wraps. -/
def Obligations.FetchIsBigEndian : Prop :=
  ∀ s : State,
    (fetchOpcode s).toNat = 256 * (readByte s s.pc).toNat + (readByte s (a12 (s.pc.toNat + 1))).toNat

/-! ### The step -/

/-- O7. When no fault is recorded and the two bytes at PC decode to an instruction, the step is exec of it, at that very
state; the handler sees PC at its own address, and the meaning itself commits the next PC. -/
def Obligations.StepRunsTheDecodedInstruction : Prop :=
  ∀ (s : State) (i : Instr), s.fault = none →
    decode (wordOfBytes (readByte s s.pc) (readByte s (a12 (s.pc.toNat + 1)))) = .ok i → step s = exec i s

/-- O8. An invalid opcode sets the fault record with the opcode and its pc, and changes nothing else (the spec's own
decision D10; that the model answers a next state is log entry 5). -/
def Obligations.InvalidOpcodeSetsOnlyTheFaultRecord : Prop :=
  ∀ s : State, s.fault = none → invalidByGroup (fetchOpcode s) →
    step s = .next { s with fault := some (.invalidOpcode (fetchOpcode s) s.pc) }

/-- O9. A halted core executes no step, and the Step operation leaves it as it is (the spec's own decision D11; the outcome
fault with the reason halted is log entry 5). -/
def Obligations.HaltedCoreTakesNoStep : Prop :=
  ∀ (s : State) (r : FaultRecord), s.fault = some r → step s = .fault (.halted r) ∧ stepOp s = s

/-- O10. No instruction stops the model: exec always answers a next state. For CALL at SP = 8 and RET at SP = 0 under bounded,
where the spec halts the core, that the state with the record set is a next state is the model's own choice (log entry 5,
DEDUCED). -/
def Obligations.EveryInstructionAnswersANextState : Prop :=
  ∀ (i : Instr) (s : State), ∃ t, exec i s = .next t

/-- O11. Only 2NNN and 00EE raise a fault, only under bounded, at SP = 8 and SP = 0, and the record is all that changes
(40_step_cycle.md R125's clause). The policy is the spec's own decision D4, D5; that only the record changes is its decision
D10; that the result is a next state is the model's choice, log entry 5. -/
def Obligations.OnlyCallAndReturnRaiseStackFaults : Prop :=
  ∀ (i : Instr) (s t : State), s.fault = none → exec i s = .next t → t.fault ≠ none →
    s.cfg.stackPolicy = .bounded ∧
    ((∃ nnn, i = .call nnn) ∧ s.sp = 8 ∧ t = { s with fault := some (.stackOverflow s.pc) } ∨
      i = .ret ∧ s.sp = 0 ∧ t = { s with fault := some (.stackUnderflow s.pc) })

/-- O12. After every step that completes, the draw hint is true exactly when the opcode executed was DXYN, or was 00E0 with
CLS_SETS_DRAWN (that 00E0 follows the parameter is the spec's own decision D19). -/
def Obligations.DrawHintFollowsTheExecutedOpcode : Prop :=
  ∀ (s t : State) (i : Instr), decode (fetchOpcode s) = .ok i → step s = .next t → t.fault = none →
    (t.drawn = true ↔ (∃ x y n, i = .drw x y n) ∨ i = .cls ∧ s.cfg.clsSetsDrawn = true)

/-! ### Control flow -/

/-- O13 (R142). 1NNN sets PC to NNN. -/
def Obligations.JumpSetsPcToTheAddress : Prop :=
  ∀ (nnn : Addr) (s : State),
    EncodesAs (.jp nnn) (0x1000 ||| putNNN nnn) ∧
    Completes (.jp nnn) s {} nnn.toNat false (fun t => t.pc = nnn)

/-- O14 (R148). BNNN sets PC to NNN + V0, reduced modulo 4096 after the addition; X selects no register. -/
def Obligations.JumpWithOffsetAddsV0 : Prop :=
  ∀ (nnn : Addr) (s : State),
    EncodesAs (.jpV0 nnn) (0xB000 ||| putNNN nnn) ∧
    Completes (.jpV0 nnn) s {} (nnn.toNat + (getV s 0).toNat) false
      (fun t => t.pc.toNat = (nnn.toNat + (getV s 0).toNat) % 4096)

/-- O15 (R144, R145, R146, R147). The four comparing skips: PC + 4 when the condition holds, else PC + 2. -/
def Obligations.ComparingSkipsAdvanceByFourOrTwo : Prop :=
  ∀ (x y : Reg) (nn : Byte) (s : State),
    (EncodesAs (.seImm x nn) (0x3000 ||| putX x ||| putNN nn) ∧
      Completes (.seImm x nn) s {} (s.pc.toNat + if getV s x = nn then 4 else 2) false (fun _ => True)) ∧
    (EncodesAs (.sneImm x nn) (0x4000 ||| putX x ||| putNN nn) ∧
      Completes (.sneImm x nn) s {} (s.pc.toNat + if getV s x ≠ nn then 4 else 2) false (fun _ => True)) ∧
    (EncodesAs (.seReg x y) (0x5000 ||| putX x ||| putY y) ∧
      Completes (.seReg x y) s {} (s.pc.toNat + if getV s x = getV s y then 4 else 2) false (fun _ => True)) ∧
    (EncodesAs (.sneReg x y) (0x9000 ||| putX x ||| putY y) ∧
      Completes (.sneReg x y) s {} (s.pc.toNat + if getV s x ≠ getV s y then 4 else 2) false (fun _ => True))

/-- O16 (R230, R231, R232). The two key skips test key V[X] mod 16, bits 7..4 ignored. -/
def Obligations.KeySkipsTestTheLowNibbleKey : Prop :=
  ∀ (x : Reg) (k : Key) (s : State), (getV s x).toNat % 16 = k.val →
    (EncodesAs (.skp x) (0xE09E ||| putX x) ∧
      Completes (.skp x) s {} (s.pc.toNat + if s.keys[k] = true then 4 else 2) false (fun _ => True)) ∧
    (EncodesAs (.sknp x) (0xE0A1 ||| putX x) ∧
      Completes (.sknp x) s {} (s.pc.toNat + if s.keys[k] = false then 4 else 2) false (fun _ => True))

/-- O17. 2NNN pushes a12(pc + 2) at SP, moves SP up as the policy says, and jumps (41_control_flow.md; the policies and the
pushed value are the spec's own decisions D4 to D6). -/
def Obligations.CallPushesTheReturnAddressAndJumps : Prop :=
  ∀ (nnn : Addr) (s : State), ¬ (s.cfg.stackPolicy = .bounded ∧ s.sp = 8) →
    EncodesAs (.call nnn) (0x2000 ||| putNNN nnn) ∧
    Completes (.call nnn) s { stack := true } nnn.toNat false (fun t =>
      t.pc = nnn ∧
      (∀ k : Fin 12, t.stack[k].toNat = if k.val = s.sp.val then (s.pc.toNat + 2) % 4096 else s.stack[k].toNat) ∧
      (s.cfg.stackPolicy = .bounded → t.sp.val = s.sp.val + 1) ∧
      (s.cfg.stackPolicy = .wrap8 → t.sp.val = (s.sp.val + 1) % 8))

/-- O18. 00EE moves SP down as the policy says and sets PC to the slot it leaves; no slot changes (41_control_flow.md; the
policies are the spec's own decisions D4, D5). -/
def Obligations.ReturnPopsTheReturnAddress : Prop :=
  ∀ s : State, ¬ (s.cfg.stackPolicy = .bounded ∧ s.sp = 0) →
    EncodesAs .ret 0x00EE ∧
    ∃ k : Fin 9, (s.cfg.stackPolicy = .bounded → k.val + 1 = s.sp.val) ∧
      (s.cfg.stackPolicy = .wrap8 → k.val = (s.sp.val + 8 - 1) % 8) ∧
      Completes .ret s { stack := true } (s.stack[k.val]).toNat false (fun t => t.stack = s.stack ∧ t.sp = k)

/-- O19. Under bounded, a ninth nested call raises StackOverflow and a return on an empty stack raises StackUnderflow, and
nothing but the record changes (the spec's own decisions D4, D5, D10). -/
def Obligations.BoundedStackFaultsAtItsEnds : Prop :=
  ∀ s : State, s.cfg.stackPolicy = .bounded →
    (∀ nnn, s.sp = 8 → TakesFault (.call nnn) s (.stackOverflow s.pc)) ∧
    (s.sp = 0 → TakesFault .ret s (.stackUnderflow s.pc))

/-- O20. A return right after a call comes back to the instruction after the call, with SP and every other slot as before
the call, under either policy (10_state.md section 5; the policies are the spec's own decisions D4, D5). -/
def Obligations.ReturnComesBackAfterTheCall : Prop :=
  ∀ (nnn : Addr) (s : State), s.Inv → ¬ (s.cfg.stackPolicy = .bounded ∧ s.sp = 8) →
    ∃ t u, exec (.call nnn) s = .next t ∧ exec .ret t = .next u ∧ u.pc.toNat = (s.pc.toNat + 2) % 4096 ∧
      u.sp = s.sp ∧ (∀ k : Fin 12, k.val ≠ s.sp.val → u.stack[k] = s.stack[k]) ∧ u.fault = s.fault

/-- O21. The stack is last-in first-out while it holds at most eight addresses: what was pushed is popped in reverse, and the
pushes raise SP by their number (10_state.md section 5). The bounded push and pop are the spec's own decisions D4, D5. -/
def Obligations.PushedAddressesPopInReverse : Prop :=
  ∀ (as : List (BitVec 16)) (s : State), s.cfg.stackPolicy = .bounded → s.sp.val + as.length ≤ 8 →
    popAll as.length (pushAll as s) = as.reverse ∧ (pushAll as s).sp.val = s.sp.val + as.length

/-! ### Loads, ALU and the random draw -/

/-- O22 (R161, R163). 6XNN loads the byte, 8XY0 copies V[Y]; no flag. -/
def Obligations.LoadsWriteTheirOperand : Prop :=
  ∀ (x y : Reg) (nn : Byte) (s : State),
    (EncodesAs (.ldImm x nn) (0x6000 ||| putX x ||| putNN nn) ∧
      Completes (.ldImm x nn) s { regs := (· = x) } (s.pc.toNat + 2) false (fun t => getV t x = nn)) ∧
    (EncodesAs (.ldReg x y) (0x8000 ||| putX x ||| putY y) ∧
      Completes (.ldReg x y) s { regs := (· = x) } (s.pc.toNat + 2) false (fun t => getV t x = getV s y))

/-- O23. 7XNN adds modulo 256 and leaves VF alone unless X = F (42_alu.md; no flag is the spec's own decision D26). -/
def Obligations.AddImmediateWrapsAndSetsNoFlag : Prop :=
  ∀ (x : Reg) (nn : Byte) (s : State),
    EncodesAs (.addImm x nn) (0x7000 ||| putX x ||| putNN nn) ∧
    Completes (.addImm x nn) s { regs := (· = x) } (s.pc.toNat + 2) false
      (fun t => (getV t x).toNat = ((getV s x).toNat + nn.toNat) % 256)

/-- O24. 8XY1, 8XY2 and 8XY3 are the bitwise OR, AND and XOR, bit by bit, and leave VF alone unless X = F (42_alu.md; no
flag is the spec's own decision D26). -/
def Obligations.LogicOperationsWorkBitByBit : Prop :=
  ∀ (x y : Reg) (s : State),
    (EncodesAs (.orReg x y) (0x8001 ||| putX x ||| putY y) ∧
      Completes (.orReg x y) s { regs := (· = x) } (s.pc.toNat + 2) false
        (fun t => ∀ j, j < 8 → (getV t x).getLsbD j = ((getV s x).getLsbD j || (getV s y).getLsbD j))) ∧
    (EncodesAs (.andReg x y) (0x8002 ||| putX x ||| putY y) ∧
      Completes (.andReg x y) s { regs := (· = x) } (s.pc.toNat + 2) false
        (fun t => ∀ j, j < 8 → (getV t x).getLsbD j = ((getV s x).getLsbD j && (getV s y).getLsbD j))) ∧
    (EncodesAs (.xorReg x y) (0x8003 ||| putX x ||| putY y) ∧
      Completes (.xorReg x y) s { regs := (· = x) } (s.pc.toNat + 2) false
        (fun t => ∀ j, j < 8 → (getV t x).getLsbD j = ((getV s x).getLsbD j ^^ (getV s y).getLsbD j)))

/-- O25 (R167). 8XY4: the sum modulo 256, then VF = carry, also when X = F. -/
def Obligations.AddRegistersSetsCarry : Prop :=
  ∀ (x y : Reg) (s : State),
    EncodesAs (.addReg x y) (0x8004 ||| putX x ||| putY y) ∧
    Completes (.addReg x y) s { regs := fun r => r = x ∨ r = regVF } (s.pc.toNat + 2) false (fun t =>
      (x ≠ regVF → (getV t x).toNat = ((getV s x).toNat + (getV s y).toNat) % 256) ∧
      getV t regVF = if (getV s x).toNat + (getV s y).toNat > 255 then 1 else 0)

/-- O26 (R168, R170). 8XY5 and 8XY7: the difference modulo 256, then VF = no borrow, also when X = F. -/
def Obligations.SubtractionsSetNotBorrow : Prop :=
  ∀ (x y : Reg) (s : State),
    (EncodesAs (.subReg x y) (0x8005 ||| putX x ||| putY y) ∧
      Completes (.subReg x y) s { regs := fun r => r = x ∨ r = regVF } (s.pc.toNat + 2) false (fun t =>
        (x ≠ regVF → ((getV t x).toNat : Int) = ((getV s x).toNat - (getV s y).toNat : Int) % 256) ∧
        getV t regVF = if (getV s x).toNat ≥ (getV s y).toNat then 1 else 0)) ∧
    (EncodesAs (.subn x y) (0x8007 ||| putX x ||| putY y) ∧
      Completes (.subn x y) s { regs := fun r => r = x ∨ r = regVF } (s.pc.toNat + 2) false (fun t =>
        (x ≠ regVF → ((getV t x).toNat : Int) = ((getV s y).toNat - (getV s x).toNat : Int) % 256) ∧
        getV t regVF = if (getV s y).toNat ≥ (getV s x).toNat then 1 else 0))

/-- O27 (R169). 8XY6: under legacy V[Y] is shifted into V[Y] and V[X], under modern V[X] alone; then VF = bit 0 of the
source. -/
def Obligations.ShiftRightFollowsTheProfile : Prop :=
  ∀ (x y : Reg) (s : State),
    EncodesAs (.shr x y) (0x8006 ||| putX x ||| putY y) ∧
    (s.cfg.shiftProfile = .legacy →
      Completes (.shr x y) s { regs := fun r => r = y ∨ r = x ∨ r = regVF } (s.pc.toNat + 2) false (fun t =>
        (x ≠ regVF → (getV t x).toNat = (getV s y).toNat / 2) ∧
        (y ≠ regVF → (getV t y).toNat = (getV s y).toNat / 2) ∧
        getV t regVF = if (getV s y).getLsbD 0 then 1 else 0)) ∧
    (s.cfg.shiftProfile = .modern →
      Completes (.shr x y) s { regs := fun r => r = x ∨ r = regVF } (s.pc.toNat + 2) false (fun t =>
        (x ≠ regVF → (getV t x).toNat = (getV s x).toNat / 2) ∧
        getV t regVF = if (getV s x).getLsbD 0 then 1 else 0))

/-- O28. 8XYE: under legacy V[Y] is shifted into V[Y] and V[X], under modern V[X] alone; then VF = bit 7 of the source
(42_alu.md; that the bit shifted out is bit 7 is the spec's own inference in R171). -/
def Obligations.ShiftLeftFollowsTheProfile : Prop :=
  ∀ (x y : Reg) (s : State),
    EncodesAs (.shl x y) (0x800E ||| putX x ||| putY y) ∧
    (s.cfg.shiftProfile = .legacy →
      Completes (.shl x y) s { regs := fun r => r = y ∨ r = x ∨ r = regVF } (s.pc.toNat + 2) false (fun t =>
        (x ≠ regVF → (getV t x).toNat = (getV s y).toNat * 2 % 256) ∧
        (y ≠ regVF → (getV t y).toNat = (getV s y).toNat * 2 % 256) ∧
        getV t regVF = if (getV s y).getLsbD 7 then 1 else 0)) ∧
    (s.cfg.shiftProfile = .modern →
      Completes (.shl x y) s { regs := fun r => r = x ∨ r = regVF } (s.pc.toNat + 2) false (fun t =>
        (x ≠ regVF → (getV t x).toNat = (getV s x).toNat * 2 % 256) ∧
        getV t regVF = if (getV s x).getLsbD 7 then 1 else 0))

/-- O29. CXNN writes the free draw masked with NN, for every draw, and sets no flag (42_alu.md; the free draw is the spec's
own decision D8 and log entry 1). Nothing rests on the draw's value. -/
def Obligations.RandomIsTheMaskedDraw : Prop :=
  ∀ (x : Reg) (nn : Byte) (s : State),
    EncodesAs (.rnd x nn) (0xC000 ||| putX x ||| putNN nn) ∧
    Completes (.rnd x nn) s { regs := (· = x), draws := true } (s.pc.toNat + 2) false (fun t =>
      getV t x = Config.randomByte s.draws &&& nn ∧ t.draws = s.draws + 1 ∧ (nn = 0 → getV t x = 0))

/-! ### The index register and memory -/

/-- O30 (R190). ANNN sets I to NNN. -/
def Obligations.LoadIndexSetsTheAddress : Prop :=
  ∀ (nnn : Addr) (s : State),
    EncodesAs (.ldI nnn) (0xA000 ||| putNNN nnn) ∧
    Completes (.ldI nnn) s { index := true } (s.pc.toNat + 2) false (fun t => t.i.toNat = nnn.toNat)

/-- O31. FX1E adds V[X] to I modulo 4096 and sets no flag (43_index_memory.md; no flag is the spec's own decision D26). -/
def Obligations.AddToIndexWraps : Prop :=
  ∀ (x : Reg) (s : State),
    EncodesAs (.addI x) (0xF01E ||| putX x) ∧
    Completes (.addI x) s { index := true } (s.pc.toNat + 2) false
      (fun t => t.i.toNat = (s.i.toNat + (getV s x).toNat) % 4096)

/-- O32 (R192). FX29 sets I to 5 * V[X], V[X] not reduced to a nibble. -/
def Obligations.GlyphAddressIsFiveTimesTheDigit : Prop :=
  ∀ (x : Reg) (s : State),
    EncodesAs (.ldF x) (0xF029 ||| putX x) ∧
    Completes (.ldF x) s { index := true } (s.pc.toNat + 2) false (fun t => t.i.toNat = (getV s x).toNat * 5)

/-- O33 (R193). FX33 stores the hundreds, tens and ones of V[X] at I, I+1 and I+2 (mod 4096), and leaves I. -/
def Obligations.StoresTheThreeDecimalDigits : Prop :=
  ∀ (x : Reg) (s : State),
    EncodesAs (.ldB x) (0xF033 ||| putX x) ∧
    Completes (.ldB x) s { bytes := fun a => ∃ k, k < 3 ∧ a = indexAddr s k } (s.pc.toNat + 2) false (fun t =>
      (readByte t (indexAddr s 0)).toNat = (getV s x).toNat / 100 ∧
      (readByte t (indexAddr s 1)).toNat = (getV s x).toNat / 10 % 10 ∧
      (readByte t (indexAddr s 2)).toNat = (getV s x).toNat % 10)

/-- O34 (R194). FX55 stores V0..VX at I..I+X (mod 4096); I stays under legacy and becomes a12(I + X + 1) under modern. -/
def Obligations.StoreRegistersCopiesTheBlock : Prop :=
  ∀ (x : Reg) (s : State),
    EncodesAs (.storeRegs x) (0xF055 ||| putX x) ∧
    Completes (.storeRegs x) s
      { bytes := fun a => ∃ k, k ≤ x.val ∧ a = indexAddr s k, index := s.cfg.memIncProfile == .modern }
      (s.pc.toNat + 2) false (fun t =>
        (∀ k : Reg, k ≤ x → readByte t (indexAddr s k.val) = getV s k) ∧
        (s.cfg.memIncProfile = .modern → t.i.toNat = (s.i.toNat + x.val + 1) % 4096))

/-- O35 (R195). FX65 loads V0..VX from I..I+X (mod 4096); I stays under legacy and becomes a12(I + X + 1) under modern. -/
def Obligations.LoadRegistersCopiesTheBlock : Prop :=
  ∀ (x : Reg) (s : State),
    EncodesAs (.loadRegs x) (0xF065 ||| putX x) ∧
    Completes (.loadRegs x) s { regs := fun r => r ≤ x, index := s.cfg.memIncProfile == .modern }
      (s.pc.toNat + 2) false (fun t =>
        (∀ k : Reg, k ≤ x → getV t k = readByte s (indexAddr s k.val)) ∧
        (s.cfg.memIncProfile = .modern → t.i.toNat = (s.i.toNat + x.val + 1) % 4096))

/-- O36. A store is seen by the very next fetch: when the bytes FX55 stores land where the next instruction is fetched, the
next opcode is made of them (20_memory.md section 4; fetch coherence is the spec's own decision D13). -/
def Obligations.StoredBytesAreFetchedNext : Prop :=
  ∀ (x j k : Reg) (s t : State), exec (.storeRegs x) s = .next t → j ≤ x → k ≤ x →
    a12 (s.pc.toNat + 2) = indexAddr s j.val → a12 (s.pc.toNat + 3) = indexAddr s k.val →
    fetchOpcode t = wordOfBytes (getV s j) (getV s k)

/-! ### The display -/

/-- O37. 00E0 clears every pixel, writes no flag, and sets the draw hint as CLS_SETS_DRAWN says (44_display.md; the hint is
the spec's own decision D19). -/
def Obligations.ClearTurnsEveryPixelOff : Prop :=
  ∀ s : State,
    EncodesAs .cls 0x00E0 ∧
    Completes .cls s { display := true } (s.pc.toNat + 2) s.cfg.clsSetsDrawn
      (fun t => ∀ r c, pixel t.display r c = false)

/-- O38 (R211, R212). DXYN inverts exactly the pixels where the clipped sprite has a 1, and VF tells whether one of them was
set before. -/
def Obligations.DrawInvertsTheClippedSpritePixels : Prop :=
  ∀ (x y : Reg) (n : Nat) (s : State),
    (n < 16 → EncodesAs (.drw x y n) (0xD000 ||| putX x ||| putY y ||| putN n)) ∧
    Completes (.drw x y n) s { regs := (· = regVF), display := true } (s.pc.toNat + 2) true (fun t =>
      (∀ r c, pixel t.display r c = (pixel s.display r c ^^ spritePixel s x y n r c)) ∧
      ((∃ r c, spritePixel s x y n r c = true ∧ pixel s.display r c = true) → getV t regVF = 1) ∧
      ((∀ r c, spritePixel s x y n r c = true → pixel s.display r c = false) → getV t regVF = 0))

/-- O39. Drawing the same sprite twice restores the display; the second draw's VF is 1 exactly when the sprite has a pixel
inside the frame that was clear before the first draw (44_display.md section on properties, an inference of the spec's own;
its sentence on the second VF needs the clear pixel: log entry 15). -/
def Obligations.DrawingTwiceRestoresTheDisplay : Prop :=
  ∀ (x y : Reg) (n : Nat) (s : State), x ≠ regVF → y ≠ regVF →
    ∃ t u, exec (.drw x y n) s = .next t ∧ exec (.drw x y n) t = .next u ∧ u.display = s.display ∧
      (getV u regVF = 1 ↔ ∃ r c, spritePixel s x y n r c = true ∧ pixel s.display r c = false)

/-! ### Keys and timers -/

/-- O40 (R233). FX0A takes the lowest held key at once; with none held PC stays and nothing else changes. -/
def Obligations.KeyWaitTakesTheLowestHeldKeyOrPolls : Prop :=
  ∀ (x : Reg) (s : State),
    EncodesAs (.ldVxK x) (0xF00A ||| putX x) ∧
    (∀ k : Key, s.keys[k] = true → (∀ j : Key, j < k → s.keys[j] = false) →
      Completes (.ldVxK x) s { regs := (· = x) } (s.pc.toNat + 2) false (fun t => (getV t x).toNat = k.val)) ∧
    ((∀ k : Key, s.keys[k] = false) →
      Completes (.ldVxK x) s {} s.pc.toNat false (fun t => t.pc = s.pc))

/-- O41 (R234, R235, R236). FX07 reads DT, FX15 writes DT, FX18 writes ST; sound_active is ST ≠ 0. -/
def Obligations.TimerTransfersCopyTheRegister : Prop :=
  ∀ (x : Reg) (s : State),
    (EncodesAs (.ldVxDT x) (0xF007 ||| putX x) ∧
      Completes (.ldVxDT x) s { regs := (· = x) } (s.pc.toNat + 2) false (fun t => getV t x = s.dt)) ∧
    (EncodesAs (.ldDTVx x) (0xF015 ||| putX x) ∧
      Completes (.ldDTVx x) s { delay := true } (s.pc.toNat + 2) false (fun t => t.dt = getV s x)) ∧
    (EncodesAs (.ldSTVx x) (0xF018 ||| putX x) ∧
      Completes (.ldSTVx x) s { sound := true } (s.pc.toNat + 2) false
        (fun t => t.st = getV s x ∧ (soundActive t = true ↔ getV s x ≠ 0)))

/-- O42 (R262). One advance takes one from each timer that is not 0, and changes nothing else; so n advances in a row take n,
stopping at 0. -/
def Obligations.AdvancesCountBothTimersDownToZero : Prop :=
  ∀ (n : Nat) (s : State),
    let t := runSchedule (List.replicate n .advanceTimers) s
    t.dt.toNat = s.dt.toNat - n ∧ t.st.toNat = s.st.toNat - n ∧ { t with dt := s.dt, st := s.st } = s

/-- O43. A wait at FX0A ends only when the host sets a key: while no key is held and the host calls no SetKeys, every
schedule of steps and advances leaves PC, the registers and memory as they are, and no fault is recorded (70_reset_and_hazards.md
section 3, an inference of the spec's own). -/
def Obligations.KeyWaitLastsUntilTheHostSetsAKey : Prop :=
  ∀ (ops : List HostOp) (x : Reg) (s : State), s.fault = none → decode (fetchOpcode s) = .ok (.ldVxK x) →
    (∀ k : Key, s.keys[k] = false) → (∀ op ∈ ops, ∀ keys, op ≠ .setKeys keys) →
    let t := runSchedule ops s
    t.pc = s.pc ∧ t.v = s.v ∧ t.i = s.i ∧ t.mem = s.mem ∧ t.stack = s.stack ∧ t.sp = s.sp ∧
      t.display = s.display ∧ t.keys = s.keys ∧ t.fault = none

/-! ### Rules about every instruction -/

/-- O44. A general register changes only where the table of 10_state.md section 2 says it is written; SetKeys and
AdvanceTimers write none. -/
def Obligations.RegistersChangeOnlyAsTheTableSays : Prop :=
  (∀ (i : Instr) (s t : State), exec i s = .next t → ∀ r, ¬ writesReg s i r → getV t r = getV s r) ∧
  (∀ (s : State) (keys : Vector Bool 16) (r : Reg),
    getV (setKeys keys s) r = getV s r ∧ getV (advanceTimers s) r = getV s r)

/-- O45 (R21). The six flag instructions leave 0 or 1 in VF whatever X is; every other instruction writes VF only when VF is
its named destination. -/
def Obligations.FlagIsWrittenOnlyByTheFlagInstructions : Prop :=
  ∀ (i : Instr) (s t : State), exec i s = .next t →
    (setsFlag i = true → getV t regVF = 0 ∨ getV t regVF = 1) ∧
    (setsFlag i = false → namesVF i = false → getV t regVF = getV s regVF)

/-- O46. Memory, the display, the call stack, I, DT, ST, the keys and the configuration change only by the instructions the
spec names for them (10_state.md; 20_memory.md). -/
def Obligations.EachUnitIsWrittenOnlyByItsInstructions : Prop :=
  ∀ (i : Instr) (s t : State), exec i s = .next t →
    (∀ a, ¬ writesByte s i a → readByte t a = readByte s a) ∧
    (writesDisplay i = false → t.display = s.display) ∧
    (accessesStack i = false → t.stack = s.stack ∧ t.sp = s.sp) ∧
    (writesIndex s.cfg i = false → t.i = s.i) ∧
    ((∀ x, i ≠ .ldDTVx x) → t.dt = s.dt) ∧
    ((∀ x, i ≠ .ldSTVx x) → t.st = s.st) ∧
    t.keys = s.keys ∧ t.cfg = s.cfg

/-- O47 (R35's sentence that no instruction reads ST). Two states that differ only in ST run every instruction alike: the
results differ at most in ST, and after FX18 not even there. For CXNN the two runs are compared at the same draw: both states
hold the same draws counter, so both get the same free byte, which is log entry 1's form and not a rule of the spec. -/
def Obligations.NoInstructionReadsTheSoundTimer : Prop :=
  ∀ (i : Instr) (s : State) (b : Byte), ∃ t, exec i s = .next t ∧
    ((∀ x, i ≠ .ldSTVx x) → exec i { s with st := b } = .next { t with st := b }) ∧
    ((∃ x, i = .ldSTVx x) → exec i { s with st := b } = .next t)

/-! ### Invariants -/

/-- O48. The state after reset meets the invariant, and a fault it recorded would be precise (that it records none is in O52).
State.reset is log entry 3's choice among the machines Construct can build. -/
def Obligations.ResetMeetsTheInvariant : Prop :=
  State.reset.Inv ∧ FaultPrecise State.reset

/-- O49. Every step keeps the invariant: canonical memory, I below 4096, 12-bit stack slots, unused slots 0, and SP in the
policy's range. -/
def Obligations.EveryStepKeepsTheInvariant : Prop :=
  ∀ s t : State, s.Inv → step s = .next t → t.Inv

/-- O50. From every machine Construct builds, with any legal configuration and image, every schedule of host operations keeps
the invariant and the precision of a recorded fault, and never changes the configuration. That faults are precise is R255, the
spec's own decision D10; that a schedule is any finite list of operations is log entry 8. -/
def Obligations.EveryScheduleKeepsTheInvariant : Prop :=
  ∀ (image : List Byte) (cfg : Config) (s : State), construct (some image) cfg = .ok s →
    ∀ ops : List HostOp,
      (runSchedule ops s).Inv ∧ FaultPrecise (runSchedule ops s) ∧ (runSchedule ops s).cfg = cfg

/-- O51. A fault is sticky under every schedule: the record stays, no step executes, and only the keys and the timers can
still change (the spec's own decision D11). -/
def Obligations.RecordedFaultIsStickyUnderEverySchedule : Prop :=
  ∀ (ops : List HostOp) (s : State) (r : FaultRecord), s.fault = some r →
    let t := runSchedule ops s
    step t = .fault (.halted r) ∧ { t with keys := s.keys, dt := s.dt, st := s.st } = s

/-! ### Construction -/

/-- O52. State.reset is what Construct builds from an empty image and the reset configuration, and it holds the reset values
of 10_state.md section 11 (the display, key and hint values are the spec's own decisions D17 to D19; the empty image is log
entry 3). -/
def Obligations.ResetIsConstructionOfAnEmptyImage : Prop :=
  construct (some []) Config.reset = .ok State.reset ∧
  (∀ r, getV State.reset r = 0) ∧ State.reset.i = 0 ∧ State.reset.pc = 0x200 ∧
  (∀ k : Fin 12, State.reset.stack[k] = 0) ∧ State.reset.sp = 0 ∧ State.reset.dt = 0 ∧ State.reset.st = 0 ∧
  (∀ k : Key, State.reset.keys[k] = false) ∧ (∀ r c, pixel State.reset.display r c = false) ∧
  State.reset.drawn = false ∧ State.reset.fault = none

/-- O53 (R285 to R287). Construction lays out memory: FONT at 0..79, the image's prefix of at most 3584 bytes from 0x200, zero
everywhere else. The clause on the image is R287, the spec's own decision D22. -/
def Obligations.ConstructLaysOutMemory : Prop :=
  ∀ (image : List Byte) (cfg : Config), cfg.wellFormed = true →
    ∃ s, construct (some image) cfg = .ok s ∧ s.cfg = cfg ∧ s.pc = 0x200 ∧
      (∀ a : Fin 80, memRead s.mem a.val = cfg.font[a]) ∧
      (∀ k (hk : k < image.length), k < 3584 → memRead s.mem (0x200 + k) = image[k]) ∧
      (∀ a, 80 ≤ a → a < 0x200 ∨ 0x200 + min image.length 3584 ≤ a → memRead s.mem a = 0)

/-- O54 (R288). An image that cannot be obtained gives no machine. -/
def Obligations.MissingImageGivesNoMachine : Prop :=
  ∀ cfg : Config, construct none cfg = .error .imageUnavailable
end

