-- ==== Sys2Proof/Laws/State.lean ====
section
/-! SUPPORT. One lemma per field per update of State, each true by rfl, and the reads of a byte, a register and the default
next-PC through the updates that leave them alone. -/

namespace Sys2Proof.Machine

/-! ### setV -/

@[simp] theorem setV_v (s : State) (x : Reg) (b : Byte) : (setV s x b).v = s.v.set x b := rfl
@[simp] theorem setV_i (s : State) (x : Reg) (b : Byte) : (setV s x b).i = s.i := rfl
@[simp] theorem setV_pc (s : State) (x : Reg) (b : Byte) : (setV s x b).pc = s.pc := rfl
@[simp] theorem setV_mem (s : State) (x : Reg) (b : Byte) : (setV s x b).mem = s.mem := rfl
@[simp] theorem setV_stack (s : State) (x : Reg) (b : Byte) : (setV s x b).stack = s.stack := rfl
@[simp] theorem setV_sp (s : State) (x : Reg) (b : Byte) : (setV s x b).sp = s.sp := rfl
@[simp] theorem setV_dt (s : State) (x : Reg) (b : Byte) : (setV s x b).dt = s.dt := rfl
@[simp] theorem setV_st (s : State) (x : Reg) (b : Byte) : (setV s x b).st = s.st := rfl
@[simp] theorem setV_keys (s : State) (x : Reg) (b : Byte) : (setV s x b).keys = s.keys := rfl
@[simp] theorem setV_display (s : State) (x : Reg) (b : Byte) : (setV s x b).display = s.display := rfl
@[simp] theorem setV_drawn (s : State) (x : Reg) (b : Byte) : (setV s x b).drawn = s.drawn := rfl
@[simp] theorem setV_fault (s : State) (x : Reg) (b : Byte) : (setV s x b).fault = s.fault := rfl
@[simp] theorem setV_cfg (s : State) (x : Reg) (b : Byte) : (setV s x b).cfg = s.cfg := rfl
@[simp] theorem setV_draws (s : State) (x : Reg) (b : Byte) : (setV s x b).draws = s.draws := rfl
@[simp] theorem readByte_setV (s : State) (x : Reg) (b : Byte) (q : Addr) : readByte (setV s x b) q = readByte s q := rfl
@[simp] theorem seqNext_setV (s : State) (x : Reg) (b : Byte) : seqNext (setV s x b) = seqNext s := rfl

/-! ### setI -/

@[simp] theorem setI_v (s : State) (w : BitVec 16) : (setI s w).v = s.v := rfl
@[simp] theorem setI_i (s : State) (w : BitVec 16) : (setI s w).i = w := rfl
@[simp] theorem setI_pc (s : State) (w : BitVec 16) : (setI s w).pc = s.pc := rfl
@[simp] theorem setI_mem (s : State) (w : BitVec 16) : (setI s w).mem = s.mem := rfl
@[simp] theorem setI_stack (s : State) (w : BitVec 16) : (setI s w).stack = s.stack := rfl
@[simp] theorem setI_sp (s : State) (w : BitVec 16) : (setI s w).sp = s.sp := rfl
@[simp] theorem setI_dt (s : State) (w : BitVec 16) : (setI s w).dt = s.dt := rfl
@[simp] theorem setI_st (s : State) (w : BitVec 16) : (setI s w).st = s.st := rfl
@[simp] theorem setI_keys (s : State) (w : BitVec 16) : (setI s w).keys = s.keys := rfl
@[simp] theorem setI_display (s : State) (w : BitVec 16) : (setI s w).display = s.display := rfl
@[simp] theorem setI_drawn (s : State) (w : BitVec 16) : (setI s w).drawn = s.drawn := rfl
@[simp] theorem setI_fault (s : State) (w : BitVec 16) : (setI s w).fault = s.fault := rfl
@[simp] theorem setI_cfg (s : State) (w : BitVec 16) : (setI s w).cfg = s.cfg := rfl
@[simp] theorem setI_draws (s : State) (w : BitVec 16) : (setI s w).draws = s.draws := rfl
@[simp] theorem readByte_setI (s : State) (w : BitVec 16) (q : Addr) : readByte (setI s w) q = readByte s q := rfl
@[simp] theorem getV_setI (s : State) (w : BitVec 16) (q : Reg) : getV (setI s w) q = getV s q := rfl
@[simp] theorem seqNext_setI (s : State) (w : BitVec 16) : seqNext (setI s w) = seqNext s := rfl

/-! ### setDT -/

@[simp] theorem setDT_v (s : State) (b : Byte) : (setDT s b).v = s.v := rfl
@[simp] theorem setDT_i (s : State) (b : Byte) : (setDT s b).i = s.i := rfl
@[simp] theorem setDT_pc (s : State) (b : Byte) : (setDT s b).pc = s.pc := rfl
@[simp] theorem setDT_mem (s : State) (b : Byte) : (setDT s b).mem = s.mem := rfl
@[simp] theorem setDT_stack (s : State) (b : Byte) : (setDT s b).stack = s.stack := rfl
@[simp] theorem setDT_sp (s : State) (b : Byte) : (setDT s b).sp = s.sp := rfl
@[simp] theorem setDT_dt (s : State) (b : Byte) : (setDT s b).dt = b := rfl
@[simp] theorem setDT_st (s : State) (b : Byte) : (setDT s b).st = s.st := rfl
@[simp] theorem setDT_keys (s : State) (b : Byte) : (setDT s b).keys = s.keys := rfl
@[simp] theorem setDT_display (s : State) (b : Byte) : (setDT s b).display = s.display := rfl
@[simp] theorem setDT_drawn (s : State) (b : Byte) : (setDT s b).drawn = s.drawn := rfl
@[simp] theorem setDT_fault (s : State) (b : Byte) : (setDT s b).fault = s.fault := rfl
@[simp] theorem setDT_cfg (s : State) (b : Byte) : (setDT s b).cfg = s.cfg := rfl
@[simp] theorem setDT_draws (s : State) (b : Byte) : (setDT s b).draws = s.draws := rfl
@[simp] theorem readByte_setDT (s : State) (b : Byte) (q : Addr) : readByte (setDT s b) q = readByte s q := rfl
@[simp] theorem getV_setDT (s : State) (b : Byte) (q : Reg) : getV (setDT s b) q = getV s q := rfl
@[simp] theorem seqNext_setDT (s : State) (b : Byte) : seqNext (setDT s b) = seqNext s := rfl

/-! ### setST -/

@[simp] theorem setST_v (s : State) (b : Byte) : (setST s b).v = s.v := rfl
@[simp] theorem setST_i (s : State) (b : Byte) : (setST s b).i = s.i := rfl
@[simp] theorem setST_pc (s : State) (b : Byte) : (setST s b).pc = s.pc := rfl
@[simp] theorem setST_mem (s : State) (b : Byte) : (setST s b).mem = s.mem := rfl
@[simp] theorem setST_stack (s : State) (b : Byte) : (setST s b).stack = s.stack := rfl
@[simp] theorem setST_sp (s : State) (b : Byte) : (setST s b).sp = s.sp := rfl
@[simp] theorem setST_dt (s : State) (b : Byte) : (setST s b).dt = s.dt := rfl
@[simp] theorem setST_st (s : State) (b : Byte) : (setST s b).st = b := rfl
@[simp] theorem setST_keys (s : State) (b : Byte) : (setST s b).keys = s.keys := rfl
@[simp] theorem setST_display (s : State) (b : Byte) : (setST s b).display = s.display := rfl
@[simp] theorem setST_drawn (s : State) (b : Byte) : (setST s b).drawn = s.drawn := rfl
@[simp] theorem setST_fault (s : State) (b : Byte) : (setST s b).fault = s.fault := rfl
@[simp] theorem setST_cfg (s : State) (b : Byte) : (setST s b).cfg = s.cfg := rfl
@[simp] theorem setST_draws (s : State) (b : Byte) : (setST s b).draws = s.draws := rfl
@[simp] theorem readByte_setST (s : State) (b : Byte) (q : Addr) : readByte (setST s b) q = readByte s q := rfl
@[simp] theorem getV_setST (s : State) (b : Byte) (q : Reg) : getV (setST s b) q = getV s q := rfl
@[simp] theorem seqNext_setST (s : State) (b : Byte) : seqNext (setST s b) = seqNext s := rfl

/-! ### writeByte -/

@[simp] theorem writeByte_v (s : State) (a : Addr) (b : Byte) : (writeByte s a b).v = s.v := rfl
@[simp] theorem writeByte_i (s : State) (a : Addr) (b : Byte) : (writeByte s a b).i = s.i := rfl
@[simp] theorem writeByte_pc (s : State) (a : Addr) (b : Byte) : (writeByte s a b).pc = s.pc := rfl
@[simp] theorem writeByte_mem (s : State) (a : Addr) (b : Byte) : (writeByte s a b).mem = memWrite s.mem a.toNat b := rfl
@[simp] theorem writeByte_stack (s : State) (a : Addr) (b : Byte) : (writeByte s a b).stack = s.stack := rfl
@[simp] theorem writeByte_sp (s : State) (a : Addr) (b : Byte) : (writeByte s a b).sp = s.sp := rfl
@[simp] theorem writeByte_dt (s : State) (a : Addr) (b : Byte) : (writeByte s a b).dt = s.dt := rfl
@[simp] theorem writeByte_st (s : State) (a : Addr) (b : Byte) : (writeByte s a b).st = s.st := rfl
@[simp] theorem writeByte_keys (s : State) (a : Addr) (b : Byte) : (writeByte s a b).keys = s.keys := rfl
@[simp] theorem writeByte_display (s : State) (a : Addr) (b : Byte) : (writeByte s a b).display = s.display := rfl
@[simp] theorem writeByte_drawn (s : State) (a : Addr) (b : Byte) : (writeByte s a b).drawn = s.drawn := rfl
@[simp] theorem writeByte_fault (s : State) (a : Addr) (b : Byte) : (writeByte s a b).fault = s.fault := rfl
@[simp] theorem writeByte_cfg (s : State) (a : Addr) (b : Byte) : (writeByte s a b).cfg = s.cfg := rfl
@[simp] theorem writeByte_draws (s : State) (a : Addr) (b : Byte) : (writeByte s a b).draws = s.draws := rfl
@[simp] theorem getV_writeByte (s : State) (a : Addr) (b : Byte) (q : Reg) : getV (writeByte s a b) q = getV s q := rfl
@[simp] theorem seqNext_writeByte (s : State) (a : Addr) (b : Byte) : seqNext (writeByte s a b) = seqNext s := rfl

/-! ### afterDraw -/

@[simp] theorem afterDraw_v (s : State) : (afterDraw s).v = s.v := rfl
@[simp] theorem afterDraw_i (s : State) : (afterDraw s).i = s.i := rfl
@[simp] theorem afterDraw_pc (s : State) : (afterDraw s).pc = s.pc := rfl
@[simp] theorem afterDraw_mem (s : State) : (afterDraw s).mem = s.mem := rfl
@[simp] theorem afterDraw_stack (s : State) : (afterDraw s).stack = s.stack := rfl
@[simp] theorem afterDraw_sp (s : State) : (afterDraw s).sp = s.sp := rfl
@[simp] theorem afterDraw_dt (s : State) : (afterDraw s).dt = s.dt := rfl
@[simp] theorem afterDraw_st (s : State) : (afterDraw s).st = s.st := rfl
@[simp] theorem afterDraw_keys (s : State) : (afterDraw s).keys = s.keys := rfl
@[simp] theorem afterDraw_display (s : State) : (afterDraw s).display = s.display := rfl
@[simp] theorem afterDraw_drawn (s : State) : (afterDraw s).drawn = s.drawn := rfl
@[simp] theorem afterDraw_fault (s : State) : (afterDraw s).fault = s.fault := rfl
@[simp] theorem afterDraw_cfg (s : State) : (afterDraw s).cfg = s.cfg := rfl
@[simp] theorem afterDraw_draws (s : State) : (afterDraw s).draws = s.draws + 1 := rfl
@[simp] theorem readByte_afterDraw (s : State) (q : Addr) : readByte (afterDraw s) q = readByte s q := rfl
@[simp] theorem getV_afterDraw (s : State) (q : Reg) : getV (afterDraw s) q = getV s q := rfl
@[simp] theorem seqNext_afterDraw (s : State) : seqNext (afterDraw s) = seqNext s := rfl

/-! ### commit -/

@[simp] theorem commit_v (next : Nat) (drew : Bool) (s : State) : (commit next drew s).v = s.v := rfl
@[simp] theorem commit_i (next : Nat) (drew : Bool) (s : State) : (commit next drew s).i = s.i := rfl
@[simp] theorem commit_pc (next : Nat) (drew : Bool) (s : State) : (commit next drew s).pc = a12 next := rfl
@[simp] theorem commit_mem (next : Nat) (drew : Bool) (s : State) : (commit next drew s).mem = s.mem := rfl
@[simp] theorem commit_stack (next : Nat) (drew : Bool) (s : State) : (commit next drew s).stack = s.stack := rfl
@[simp] theorem commit_sp (next : Nat) (drew : Bool) (s : State) : (commit next drew s).sp = s.sp := rfl
@[simp] theorem commit_dt (next : Nat) (drew : Bool) (s : State) : (commit next drew s).dt = s.dt := rfl
@[simp] theorem commit_st (next : Nat) (drew : Bool) (s : State) : (commit next drew s).st = s.st := rfl
@[simp] theorem commit_keys (next : Nat) (drew : Bool) (s : State) : (commit next drew s).keys = s.keys := rfl
@[simp] theorem commit_display (next : Nat) (drew : Bool) (s : State) : (commit next drew s).display = s.display := rfl
@[simp] theorem commit_drawn (next : Nat) (drew : Bool) (s : State) : (commit next drew s).drawn = drew := rfl
@[simp] theorem commit_fault (next : Nat) (drew : Bool) (s : State) : (commit next drew s).fault = s.fault := rfl
@[simp] theorem commit_cfg (next : Nat) (drew : Bool) (s : State) : (commit next drew s).cfg = s.cfg := rfl
@[simp] theorem commit_draws (next : Nat) (drew : Bool) (s : State) : (commit next drew s).draws = s.draws := rfl
@[simp] theorem readByte_commit (next : Nat) (drew : Bool) (s : State) (q : Addr) : readByte (commit next drew s) q = readByte s q := rfl
@[simp] theorem getV_commit (next : Nat) (drew : Bool) (s : State) (q : Reg) : getV (commit next drew s) q = getV s q := rfl

/-! ### pushed -/

@[simp] theorem pushed_v (s : State) (a : BitVec 16) : (pushed s a).v = s.v := rfl
@[simp] theorem pushed_i (s : State) (a : BitVec 16) : (pushed s a).i = s.i := rfl
@[simp] theorem pushed_pc (s : State) (a : BitVec 16) : (pushed s a).pc = s.pc := rfl
@[simp] theorem pushed_mem (s : State) (a : BitVec 16) : (pushed s a).mem = s.mem := rfl
@[simp] theorem pushed_stack (s : State) (a : BitVec 16) : (pushed s a).stack = s.stack.set s.sp.val a := rfl
@[simp] theorem pushed_sp (s : State) (a : BitVec 16) : (pushed s a).sp = spAfterPush s := rfl
@[simp] theorem pushed_dt (s : State) (a : BitVec 16) : (pushed s a).dt = s.dt := rfl
@[simp] theorem pushed_st (s : State) (a : BitVec 16) : (pushed s a).st = s.st := rfl
@[simp] theorem pushed_keys (s : State) (a : BitVec 16) : (pushed s a).keys = s.keys := rfl
@[simp] theorem pushed_display (s : State) (a : BitVec 16) : (pushed s a).display = s.display := rfl
@[simp] theorem pushed_drawn (s : State) (a : BitVec 16) : (pushed s a).drawn = s.drawn := rfl
@[simp] theorem pushed_fault (s : State) (a : BitVec 16) : (pushed s a).fault = s.fault := rfl
@[simp] theorem pushed_cfg (s : State) (a : BitVec 16) : (pushed s a).cfg = s.cfg := rfl
@[simp] theorem pushed_draws (s : State) (a : BitVec 16) : (pushed s a).draws = s.draws := rfl
@[simp] theorem readByte_pushed (s : State) (a : BitVec 16) (q : Addr) : readByte (pushed s a) q = readByte s q := rfl
@[simp] theorem getV_pushed (s : State) (a : BitVec 16) (q : Reg) : getV (pushed s a) q = getV s q := rfl
@[simp] theorem seqNext_pushed (s : State) (a : BitVec 16) : seqNext (pushed s a) = seqNext s := rfl

/-! ### popped -/

@[simp] theorem popped_v (s : State) : (popped s).v = s.v := rfl
@[simp] theorem popped_i (s : State) : (popped s).i = s.i := rfl
@[simp] theorem popped_pc (s : State) : (popped s).pc = s.pc := rfl
@[simp] theorem popped_mem (s : State) : (popped s).mem = s.mem := rfl
@[simp] theorem popped_stack (s : State) : (popped s).stack = s.stack := rfl
@[simp] theorem popped_sp (s : State) : (popped s).sp = spAfterPop s := rfl
@[simp] theorem popped_dt (s : State) : (popped s).dt = s.dt := rfl
@[simp] theorem popped_st (s : State) : (popped s).st = s.st := rfl
@[simp] theorem popped_keys (s : State) : (popped s).keys = s.keys := rfl
@[simp] theorem popped_display (s : State) : (popped s).display = s.display := rfl
@[simp] theorem popped_drawn (s : State) : (popped s).drawn = s.drawn := rfl
@[simp] theorem popped_fault (s : State) : (popped s).fault = s.fault := rfl
@[simp] theorem popped_cfg (s : State) : (popped s).cfg = s.cfg := rfl
@[simp] theorem popped_draws (s : State) : (popped s).draws = s.draws := rfl
@[simp] theorem readByte_popped (s : State) (q : Addr) : readByte (popped s) q = readByte s q := rfl
@[simp] theorem getV_popped (s : State) (q : Reg) : getV (popped s) q = getV s q := rfl
@[simp] theorem seqNext_popped (s : State) : seqNext (popped s) = seqNext s := rfl

/-! ### setFlag -/

@[simp] theorem setFlag_v (c : Bool) (s : State) : (setFlag c s).v = s.v.set regVF (flagByte c) := rfl
@[simp] theorem setFlag_i (c : Bool) (s : State) : (setFlag c s).i = s.i := rfl
@[simp] theorem setFlag_pc (c : Bool) (s : State) : (setFlag c s).pc = s.pc := rfl
@[simp] theorem setFlag_mem (c : Bool) (s : State) : (setFlag c s).mem = s.mem := rfl
@[simp] theorem setFlag_stack (c : Bool) (s : State) : (setFlag c s).stack = s.stack := rfl
@[simp] theorem setFlag_sp (c : Bool) (s : State) : (setFlag c s).sp = s.sp := rfl
@[simp] theorem setFlag_dt (c : Bool) (s : State) : (setFlag c s).dt = s.dt := rfl
@[simp] theorem setFlag_st (c : Bool) (s : State) : (setFlag c s).st = s.st := rfl
@[simp] theorem setFlag_keys (c : Bool) (s : State) : (setFlag c s).keys = s.keys := rfl
@[simp] theorem setFlag_display (c : Bool) (s : State) : (setFlag c s).display = s.display := rfl
@[simp] theorem setFlag_drawn (c : Bool) (s : State) : (setFlag c s).drawn = s.drawn := rfl
@[simp] theorem setFlag_fault (c : Bool) (s : State) : (setFlag c s).fault = s.fault := rfl
@[simp] theorem setFlag_cfg (c : Bool) (s : State) : (setFlag c s).cfg = s.cfg := rfl
@[simp] theorem setFlag_draws (c : Bool) (s : State) : (setFlag c s).draws = s.draws := rfl
@[simp] theorem readByte_setFlag (c : Bool) (s : State) (q : Addr) : readByte (setFlag c s) q = readByte s q := rfl
@[simp] theorem seqNext_setFlag (c : Bool) (s : State) : seqNext (setFlag c s) = seqNext s := rfl

/-! ### shiftWrite -/

@[simp] theorem shiftWrite_v (s : State) (x y : Reg) (r : Byte) : (shiftWrite s x y r).v = shiftedRegs s x y r := rfl
@[simp] theorem shiftWrite_i (s : State) (x y : Reg) (r : Byte) : (shiftWrite s x y r).i = s.i := rfl
@[simp] theorem shiftWrite_pc (s : State) (x y : Reg) (r : Byte) : (shiftWrite s x y r).pc = s.pc := rfl
@[simp] theorem shiftWrite_mem (s : State) (x y : Reg) (r : Byte) : (shiftWrite s x y r).mem = s.mem := rfl
@[simp] theorem shiftWrite_stack (s : State) (x y : Reg) (r : Byte) : (shiftWrite s x y r).stack = s.stack := rfl
@[simp] theorem shiftWrite_sp (s : State) (x y : Reg) (r : Byte) : (shiftWrite s x y r).sp = s.sp := rfl
@[simp] theorem shiftWrite_dt (s : State) (x y : Reg) (r : Byte) : (shiftWrite s x y r).dt = s.dt := rfl
@[simp] theorem shiftWrite_st (s : State) (x y : Reg) (r : Byte) : (shiftWrite s x y r).st = s.st := rfl
@[simp] theorem shiftWrite_keys (s : State) (x y : Reg) (r : Byte) : (shiftWrite s x y r).keys = s.keys := rfl
@[simp] theorem shiftWrite_display (s : State) (x y : Reg) (r : Byte) : (shiftWrite s x y r).display = s.display := rfl
@[simp] theorem shiftWrite_drawn (s : State) (x y : Reg) (r : Byte) : (shiftWrite s x y r).drawn = s.drawn := rfl
@[simp] theorem shiftWrite_fault (s : State) (x y : Reg) (r : Byte) : (shiftWrite s x y r).fault = s.fault := rfl
@[simp] theorem shiftWrite_cfg (s : State) (x y : Reg) (r : Byte) : (shiftWrite s x y r).cfg = s.cfg := rfl
@[simp] theorem shiftWrite_draws (s : State) (x y : Reg) (r : Byte) : (shiftWrite s x y r).draws = s.draws := rfl
@[simp] theorem readByte_shiftWrite (s : State) (x y : Reg) (r : Byte) (q : Addr) : readByte (shiftWrite s x y r) q = readByte s q := rfl
@[simp] theorem seqNext_shiftWrite (s : State) (x y : Reg) (r : Byte) : seqNext (shiftWrite s x y r) = seqNext s := rfl

/-! ### bumpIndex -/

@[simp] theorem bumpIndex_v (x : Reg) (s : State) : (bumpIndex x s).v = s.v := rfl
@[simp] theorem bumpIndex_i (x : Reg) (s : State) : (bumpIndex x s).i = indexAfterBlock x s := rfl
@[simp] theorem bumpIndex_pc (x : Reg) (s : State) : (bumpIndex x s).pc = s.pc := rfl
@[simp] theorem bumpIndex_mem (x : Reg) (s : State) : (bumpIndex x s).mem = s.mem := rfl
@[simp] theorem bumpIndex_stack (x : Reg) (s : State) : (bumpIndex x s).stack = s.stack := rfl
@[simp] theorem bumpIndex_sp (x : Reg) (s : State) : (bumpIndex x s).sp = s.sp := rfl
@[simp] theorem bumpIndex_dt (x : Reg) (s : State) : (bumpIndex x s).dt = s.dt := rfl
@[simp] theorem bumpIndex_st (x : Reg) (s : State) : (bumpIndex x s).st = s.st := rfl
@[simp] theorem bumpIndex_keys (x : Reg) (s : State) : (bumpIndex x s).keys = s.keys := rfl
@[simp] theorem bumpIndex_display (x : Reg) (s : State) : (bumpIndex x s).display = s.display := rfl
@[simp] theorem bumpIndex_drawn (x : Reg) (s : State) : (bumpIndex x s).drawn = s.drawn := rfl
@[simp] theorem bumpIndex_fault (x : Reg) (s : State) : (bumpIndex x s).fault = s.fault := rfl
@[simp] theorem bumpIndex_cfg (x : Reg) (s : State) : (bumpIndex x s).cfg = s.cfg := rfl
@[simp] theorem bumpIndex_draws (x : Reg) (s : State) : (bumpIndex x s).draws = s.draws := rfl
@[simp] theorem readByte_bumpIndex (x : Reg) (s : State) (q : Addr) : readByte (bumpIndex x s) q = readByte s q := rfl
@[simp] theorem getV_bumpIndex (x : Reg) (s : State) (q : Reg) : getV (bumpIndex x s) q = getV s q := rfl
@[simp] theorem seqNext_bumpIndex (x : Reg) (s : State) : seqNext (bumpIndex x s) = seqNext s := rfl

/-! ### setKeys -/

@[simp] theorem setKeys_v (keys : Vector Bool 16) (s : State) : (setKeys keys s).v = s.v := rfl
@[simp] theorem setKeys_i (keys : Vector Bool 16) (s : State) : (setKeys keys s).i = s.i := rfl
@[simp] theorem setKeys_pc (keys : Vector Bool 16) (s : State) : (setKeys keys s).pc = s.pc := rfl
@[simp] theorem setKeys_mem (keys : Vector Bool 16) (s : State) : (setKeys keys s).mem = s.mem := rfl
@[simp] theorem setKeys_stack (keys : Vector Bool 16) (s : State) : (setKeys keys s).stack = s.stack := rfl
@[simp] theorem setKeys_sp (keys : Vector Bool 16) (s : State) : (setKeys keys s).sp = s.sp := rfl
@[simp] theorem setKeys_dt (keys : Vector Bool 16) (s : State) : (setKeys keys s).dt = s.dt := rfl
@[simp] theorem setKeys_st (keys : Vector Bool 16) (s : State) : (setKeys keys s).st = s.st := rfl
@[simp] theorem setKeys_keys (keys : Vector Bool 16) (s : State) : (setKeys keys s).keys = keys := rfl
@[simp] theorem setKeys_display (keys : Vector Bool 16) (s : State) : (setKeys keys s).display = s.display := rfl
@[simp] theorem setKeys_drawn (keys : Vector Bool 16) (s : State) : (setKeys keys s).drawn = s.drawn := rfl
@[simp] theorem setKeys_fault (keys : Vector Bool 16) (s : State) : (setKeys keys s).fault = s.fault := rfl
@[simp] theorem setKeys_cfg (keys : Vector Bool 16) (s : State) : (setKeys keys s).cfg = s.cfg := rfl
@[simp] theorem setKeys_draws (keys : Vector Bool 16) (s : State) : (setKeys keys s).draws = s.draws := rfl
@[simp] theorem readByte_setKeys (keys : Vector Bool 16) (s : State) (q : Addr) : readByte (setKeys keys s) q = readByte s q := rfl
@[simp] theorem getV_setKeys (keys : Vector Bool 16) (s : State) (q : Reg) : getV (setKeys keys s) q = getV s q := rfl
@[simp] theorem seqNext_setKeys (keys : Vector Bool 16) (s : State) : seqNext (setKeys keys s) = seqNext s := rfl

/-! ### advanceTimers -/

@[simp] theorem advanceTimers_v (s : State) : (advanceTimers s).v = s.v := rfl
@[simp] theorem advanceTimers_i (s : State) : (advanceTimers s).i = s.i := rfl
@[simp] theorem advanceTimers_pc (s : State) : (advanceTimers s).pc = s.pc := rfl
@[simp] theorem advanceTimers_mem (s : State) : (advanceTimers s).mem = s.mem := rfl
@[simp] theorem advanceTimers_stack (s : State) : (advanceTimers s).stack = s.stack := rfl
@[simp] theorem advanceTimers_sp (s : State) : (advanceTimers s).sp = s.sp := rfl
@[simp] theorem advanceTimers_dt (s : State) : (advanceTimers s).dt = timerTick s.dt := rfl
@[simp] theorem advanceTimers_st (s : State) : (advanceTimers s).st = timerTick s.st := rfl
@[simp] theorem advanceTimers_keys (s : State) : (advanceTimers s).keys = s.keys := rfl
@[simp] theorem advanceTimers_display (s : State) : (advanceTimers s).display = s.display := rfl
@[simp] theorem advanceTimers_drawn (s : State) : (advanceTimers s).drawn = s.drawn := rfl
@[simp] theorem advanceTimers_fault (s : State) : (advanceTimers s).fault = s.fault := rfl
@[simp] theorem advanceTimers_cfg (s : State) : (advanceTimers s).cfg = s.cfg := rfl
@[simp] theorem advanceTimers_draws (s : State) : (advanceTimers s).draws = s.draws := rfl
@[simp] theorem readByte_advanceTimers (s : State) (q : Addr) : readByte (advanceTimers s) q = readByte s q := rfl
@[simp] theorem getV_advanceTimers (s : State) (q : Reg) : getV (advanceTimers s) q = getV s q := rfl
@[simp] theorem seqNext_advanceTimers (s : State) : seqNext (advanceTimers s) = seqNext s := rfl

/-! ### The block copies: fields untouched by every byte or register of the copy -/

@[simp] theorem storeBlock_v (s : State) (n : Nat) : (storeBlock s n).v = s.v := by
  induction n with
  | zero => rfl
  | succ n ih => simpa [storeBlock] using ih
@[simp] theorem storeBlock_i (s : State) (n : Nat) : (storeBlock s n).i = s.i := by
  induction n with
  | zero => rfl
  | succ n ih => simpa [storeBlock] using ih
@[simp] theorem storeBlock_pc (s : State) (n : Nat) : (storeBlock s n).pc = s.pc := by
  induction n with
  | zero => rfl
  | succ n ih => simpa [storeBlock] using ih
@[simp] theorem storeBlock_stack (s : State) (n : Nat) : (storeBlock s n).stack = s.stack := by
  induction n with
  | zero => rfl
  | succ n ih => simpa [storeBlock] using ih
@[simp] theorem storeBlock_sp (s : State) (n : Nat) : (storeBlock s n).sp = s.sp := by
  induction n with
  | zero => rfl
  | succ n ih => simpa [storeBlock] using ih
@[simp] theorem storeBlock_dt (s : State) (n : Nat) : (storeBlock s n).dt = s.dt := by
  induction n with
  | zero => rfl
  | succ n ih => simpa [storeBlock] using ih
@[simp] theorem storeBlock_st (s : State) (n : Nat) : (storeBlock s n).st = s.st := by
  induction n with
  | zero => rfl
  | succ n ih => simpa [storeBlock] using ih
@[simp] theorem storeBlock_keys (s : State) (n : Nat) : (storeBlock s n).keys = s.keys := by
  induction n with
  | zero => rfl
  | succ n ih => simpa [storeBlock] using ih
@[simp] theorem storeBlock_display (s : State) (n : Nat) : (storeBlock s n).display = s.display := by
  induction n with
  | zero => rfl
  | succ n ih => simpa [storeBlock] using ih
@[simp] theorem storeBlock_drawn (s : State) (n : Nat) : (storeBlock s n).drawn = s.drawn := by
  induction n with
  | zero => rfl
  | succ n ih => simpa [storeBlock] using ih
@[simp] theorem storeBlock_fault (s : State) (n : Nat) : (storeBlock s n).fault = s.fault := by
  induction n with
  | zero => rfl
  | succ n ih => simpa [storeBlock] using ih
@[simp] theorem storeBlock_cfg (s : State) (n : Nat) : (storeBlock s n).cfg = s.cfg := by
  induction n with
  | zero => rfl
  | succ n ih => simpa [storeBlock] using ih
@[simp] theorem storeBlock_draws (s : State) (n : Nat) : (storeBlock s n).draws = s.draws := by
  induction n with
  | zero => rfl
  | succ n ih => simpa [storeBlock] using ih
@[simp] theorem seqNext_storeBlock (s : State) (n : Nat) : seqNext (storeBlock s n) = seqNext s := by
  simp [seqNext]
@[simp] theorem getV_storeBlock (s : State) (n : Nat) (r : Reg) : getV (storeBlock s n) r = getV s r := by
  simp [getV]

@[simp] theorem loadBlock_i (s : State) (n : Nat) : (loadBlock s n).i = s.i := by
  induction n with
  | zero => rfl
  | succ n ih => simpa [loadBlock] using ih
@[simp] theorem loadBlock_pc (s : State) (n : Nat) : (loadBlock s n).pc = s.pc := by
  induction n with
  | zero => rfl
  | succ n ih => simpa [loadBlock] using ih
@[simp] theorem loadBlock_mem (s : State) (n : Nat) : (loadBlock s n).mem = s.mem := by
  induction n with
  | zero => rfl
  | succ n ih => simpa [loadBlock] using ih
@[simp] theorem loadBlock_stack (s : State) (n : Nat) : (loadBlock s n).stack = s.stack := by
  induction n with
  | zero => rfl
  | succ n ih => simpa [loadBlock] using ih
@[simp] theorem loadBlock_sp (s : State) (n : Nat) : (loadBlock s n).sp = s.sp := by
  induction n with
  | zero => rfl
  | succ n ih => simpa [loadBlock] using ih
@[simp] theorem loadBlock_dt (s : State) (n : Nat) : (loadBlock s n).dt = s.dt := by
  induction n with
  | zero => rfl
  | succ n ih => simpa [loadBlock] using ih
@[simp] theorem loadBlock_st (s : State) (n : Nat) : (loadBlock s n).st = s.st := by
  induction n with
  | zero => rfl
  | succ n ih => simpa [loadBlock] using ih
@[simp] theorem loadBlock_keys (s : State) (n : Nat) : (loadBlock s n).keys = s.keys := by
  induction n with
  | zero => rfl
  | succ n ih => simpa [loadBlock] using ih
@[simp] theorem loadBlock_display (s : State) (n : Nat) : (loadBlock s n).display = s.display := by
  induction n with
  | zero => rfl
  | succ n ih => simpa [loadBlock] using ih
@[simp] theorem loadBlock_drawn (s : State) (n : Nat) : (loadBlock s n).drawn = s.drawn := by
  induction n with
  | zero => rfl
  | succ n ih => simpa [loadBlock] using ih
@[simp] theorem loadBlock_fault (s : State) (n : Nat) : (loadBlock s n).fault = s.fault := by
  induction n with
  | zero => rfl
  | succ n ih => simpa [loadBlock] using ih
@[simp] theorem loadBlock_cfg (s : State) (n : Nat) : (loadBlock s n).cfg = s.cfg := by
  induction n with
  | zero => rfl
  | succ n ih => simpa [loadBlock] using ih
@[simp] theorem loadBlock_draws (s : State) (n : Nat) : (loadBlock s n).draws = s.draws := by
  induction n with
  | zero => rfl
  | succ n ih => simpa [loadBlock] using ih
@[simp] theorem seqNext_loadBlock (s : State) (n : Nat) : seqNext (loadBlock s n) = seqNext s := by
  simp [seqNext]
@[simp] theorem readByte_loadBlock (s : State) (n : Nat) (r : Addr) : readByte (loadBlock s n) r = readByte s r := by
  simp [readByte]

end Sys2Proof.Machine
end

