-- ==== Sys2Proof/Laws/Memory.lean ====
section
/-! SUPPORT. What a read sees after a write, and that every memory operation keeps the canonical form. -/

namespace Sys2Proof.Machine

/-! ### Reads after writes, on any memory -/

theorem memRead_memInsert (m : Memory) (a a' : Nat) (b : Byte) :
    memRead (memInsert m a b) a' = if a' = a then b else memRead m a' := by
  induction m with
  | nil => simp [memInsert, memRead, eq_comm]
  | cons c rest ih =>
    obtain ⟨k, c⟩ := c
    by_cases hlt : a < k
    · rw [memInsert, if_pos hlt]
      by_cases h : a = a' <;> simp [memRead, h, eq_comm]
    · by_cases heq : a = k
      · subst heq
        rw [memInsert, if_neg hlt, if_pos rfl]
        by_cases h : a = a'
        · simp [memRead, h]
        · simp [memRead, h, Ne.symm h]
      · rw [memInsert, if_neg hlt, if_neg heq]
        by_cases hk : k = a'
        · subst hk
          simp [memRead, Ne.symm heq]
        · simp [memRead, hk, ih]

theorem memRead_erase (m : Memory) (a a' : Nat) :
    memRead (m.filter (fun c => c.1 != a)) a' = if a' = a then unlistedByte a else memRead m a' := by
  induction m with
  | nil => by_cases h : a' = a <;> simp [memRead, h]
  | cons c rest ih =>
    obtain ⟨k, c⟩ := c
    by_cases hk : k = a
    · subst hk
      by_cases h : k = a'
      · simpa [memRead, h] using ih
      · simpa [memRead, h, Ne.symm h] using ih
    · by_cases h : k = a'
      · subst h
        simp [memRead, hk]
      · simp [memRead, hk, h, ih]

/-- A read after a write: the byte written at that address, and the old byte everywhere else (R70, R72). -/
theorem memRead_memWrite (m : Memory) (a a' : Nat) (b : Byte) :
    memRead (memWrite m a b) a' = if a' = a then b else memRead m a' := by
  unfold memWrite
  by_cases h : b = unlistedByte a
  · simp [h, memRead_erase]
  · simp [h, memRead_memInsert]

/-- A read after a write, at the state's own addresses. -/
theorem readByte_writeByte (s : State) (a a' : Addr) (b : Byte) :
    readByte (writeByte s a b) a' = if a' = a then b else readByte s a' := by
  simp [readByte, memRead_memWrite, BitVec.toNat_inj]

/-! ### The canonical form -/

theorem mem_memInsert (m : Memory) (a : Nat) (b : Byte) (c : Host.Cell) (h : c ∈ memInsert m a b) :
    c = (a, b) ∨ c ∈ m := by
  induction m with
  | nil => simpa [memInsert] using h
  | cons d rest ih =>
    obtain ⟨k, e⟩ := d
    unfold memInsert at h
    split_ifs at h with hlt heq
    · simpa using h
    · simp only [List.mem_cons] at h ⊢
      tauto
    · simp only [List.mem_cons] at h ⊢
      tauto

theorem memInsert_pairwise (m : Memory) (a : Nat) (b : Byte) (h : m.Pairwise (fun c d => c.1 < d.1)) :
    (memInsert m a b).Pairwise (fun c d => c.1 < d.1) := by
  induction m with
  | nil => simp [memInsert]
  | cons d rest ih =>
    obtain ⟨k, e⟩ := d
    rw [List.pairwise_cons] at h
    by_cases hlt : a < k
    · simp only [memInsert, hlt, if_true, List.pairwise_cons, List.mem_cons]
      refine ⟨?_, h⟩
      rintro c (rfl | hc)
      · exact hlt
      · exact hlt.trans (h.1 c hc)
    · by_cases heq : a = k
      · subst heq
        simp only [memInsert, lt_irrefl, if_true, if_false, List.pairwise_cons]
        exact h
      · simp only [memInsert, hlt, heq, if_false, List.pairwise_cons]
        refine ⟨fun c hc => ?_, ih h.2⟩
        rcases mem_memInsert rest a b c hc with rfl | hc
        · show k < a
          omega
        · exact h.1 c hc

/-- Every write inside the 4096 bytes keeps the canonical form. -/
theorem memWrite_wf (m : Memory) (a : Nat) (b : Byte) (h : Memory.wf m) (ha : a < 4096) :
    Memory.wf (memWrite m a b) := by
  unfold memWrite
  by_cases hb : b = unlistedByte a
  · rw [if_pos hb]
    exact ⟨h.1.filter _, fun c hc => h.2 c (List.mem_of_mem_filter hc)⟩
  · rw [if_neg hb]
    refine ⟨memInsert_pairwise m a b h.1, fun c hc => ?_⟩
    rcases mem_memInsert m a b c hc with rfl | hc
    · exact ⟨ha, hb⟩
    · exact h.2 c hc

theorem writeByte_wf (s : State) (a : Addr) (b : Byte) (h : Memory.wf s.mem) : Memory.wf (writeByte s a b).mem :=
  memWrite_wf s.mem a.toNat b h a.isLt

theorem storeBlock_wf (s : State) (n : Nat) (h : Memory.wf s.mem) : Memory.wf (storeBlock s n).mem := by
  induction n with
  | zero => exact h
  | succ n ih => exact writeByte_wf _ _ _ ih

theorem memWriteList_wf (bs : List Byte) (m : Memory) (a : Nat) (h : Memory.wf m) (ha : a + bs.length ≤ 4096) :
    Memory.wf (memWriteList m a bs) := by
  induction bs generalizing m a with
  | nil => exact h
  | cons b bs ih =>
    simp only [List.length_cons] at ha
    exact ih _ _ (memWrite_wf m a b h (by omega)) (by omega)

theorem placeOpcode_wf (s : State) (op : Opcode) (h : Memory.wf s.mem) : Memory.wf (placeOpcode s op).mem :=
  writeByte_wf _ _ _ (writeByte_wf _ _ _ h)

/-- The memory Construct builds is canonical (R284). -/
theorem constructMemory_wf (font : Vector Byte 80) (image : List Byte) : Memory.wf (constructMemory font image) := by
  refine memWriteList_wf _ _ _ (memWriteList_wf _ _ _ ⟨List.Pairwise.nil, by simp⟩ (by simp)) ?_
  simp only [fittingPrefix, List.length_take]
  omega

theorem reset_mem_wf : Memory.wf State.reset.mem :=
  ⟨List.Pairwise.nil, by simp [State.reset, State.fresh]⟩

/-- Two canonical memories that read alike everywhere are equal data. -/
theorem memory_ext (m n : Memory) (hm : Memory.wf m) (hn : Memory.wf n) (h : ∀ a, memRead m a = memRead n a) : m = n := by
  have head : ∀ (k : Nat) (b : Byte) (r p : Memory), Memory.wf ((k, b) :: r) →
      (∀ c ∈ p, k < c.1) → ∃ a, memRead ((k, b) :: r) a ≠ memRead p a := by
    intro k b r p hw hp
    refine ⟨k, ?_⟩
    have hunl : memRead p k = unlistedByte k := by
      clear hw
      induction p with
      | nil => rfl
      | cons c p ih =>
        obtain ⟨j, e⟩ := c
        have hj : k < j := hp (j, e) (List.mem_cons_self ..)
        simp only [memRead, if_neg (show j ≠ k by omega)]
        exact ih (fun c hc => hp c (List.mem_cons_of_mem _ hc))
    rw [hunl]
    simpa [memRead] using (hw.2 (k, b) (List.mem_cons_self ..)).2
  induction m generalizing n with
  | nil =>
    cases n with
    | nil => rfl
    | cons c n =>
      obtain ⟨a, ha⟩ := head c.1 c.2 n [] hn (by simp)
      exact absurd (h a).symm ha
  | cons c m ih =>
    cases n with
    | nil =>
      obtain ⟨a, ha⟩ := head c.1 c.2 m [] hm (by simp)
      exact absurd (h a) ha
    | cons d n =>
      obtain ⟨k, b⟩ := c
      obtain ⟨j, e⟩ := d
      have pm := List.pairwise_cons.mp hm.1
      have pn := List.pairwise_cons.mp hn.1
      have hkj : k = j := by
        rcases lt_trichotomy k j with hlt | heq | hgt
        · obtain ⟨a, ha⟩ := head k b m ((j, e) :: n) hm (by
            rintro c (_ | ⟨_, hc⟩)
            · exact hlt
            · exact hlt.trans (pn.1 c hc))
          exact absurd (h a) ha
        · exact heq
        · obtain ⟨a, ha⟩ := head j e n ((k, b) :: m) hn (by
            rintro c (_ | ⟨_, hc⟩)
            · exact hgt
            · exact hgt.trans (pm.1 c hc))
          exact absurd (h a).symm ha
      subst hkj
      have hbe : b = e := by simpa [memRead] using h k
      subst hbe
      have hmn : m = n := by
        refine ih n ⟨pm.2, fun c hc => hm.2 c (List.mem_cons_of_mem _ hc)⟩
          ⟨pn.2, fun c hc => hn.2 c (List.mem_cons_of_mem _ hc)⟩ (fun a => ?_)
        by_cases hka : k = a
        · subst hka
          have unl : ∀ p : Memory, (∀ c ∈ p, k < c.1) → memRead p k = unlistedByte k := by
            intro p hp
            induction p with
            | nil => rfl
            | cons c p ihp =>
              have hj : k < c.1 := hp c (List.mem_cons_self ..)
              simp only [memRead, if_neg (show c.1 ≠ k by omega)]
              exact ihp (fun c hc => hp c (List.mem_cons_of_mem _ hc))
          rw [unl m pm.1, unl n pn.1]
        · simpa [memRead, hka] using h a
      rw [hmn]

end Sys2Proof.Machine
end

