-- ==== Sys2Proof/Laws/Registers.lean ====
section
/-! SUPPORT. What a register read sees after each register write, and what the call stack and the key scan answer. -/

namespace Sys2Proof.Machine

/-! ### General registers (R20, R22) -/

theorem getV_setV (s : State) (x r : Reg) (b : Byte) : getV (setV s x b) r = if r = x then b else getV s r := by
  by_cases h : r = x
  · subst h
    simp [getV]
  · have h' : x.val ≠ r.val := fun e => h (Fin.ext e.symm)
    simp [getV, h, h']

theorem getV_setFlag (s : State) (c : Bool) (r : Reg) :
    getV (setFlag c s) r = if r = regVF then flagByte c else getV s r :=
  getV_setV s regVF r (flagByte c)

theorem getV_shiftWrite_legacy (s : State) (x y r : Reg) (b : Byte) (h : s.cfg.shiftProfile = .legacy) :
    getV (shiftWrite s x y b) r = if r = x ∨ r = y then b else getV s r := by
  have e : shiftWrite s x y b = setV (setV s y b) x b := by simp [shiftWrite, shiftedRegs, h, setV]
  rw [e, getV_setV, getV_setV]
  split_ifs <;> tauto

theorem getV_shiftWrite_modern (s : State) (x y r : Reg) (b : Byte) (h : s.cfg.shiftProfile = .modern) :
    getV (shiftWrite s x y b) r = if r = x then b else getV s r := by
  have e : shiftWrite s x y b = setV s x b := by simp [shiftWrite, shiftedRegs, h, setV]
  rw [e, getV_setV]

theorem shiftSource_legacy (s : State) (x y : Reg) (h : s.cfg.shiftProfile = .legacy) :
    shiftSource s x y = getV s y := by simp [shiftSource, h]

theorem shiftSource_modern (s : State) (x y : Reg) (h : s.cfg.shiftProfile = .modern) :
    shiftSource s x y = getV s x := by simp [shiftSource, h]

/-! ### The wrapped arithmetic as numbers (R160) -/

theorem u8_toNat (n : Nat) : (u8 n).toNat = n % 256 := by simp [u8]

theorem a12_toNat (n : Nat) : (a12 n).toNat = n % 4096 := by simp [a12]

theorem addWrap_toNat (a b : Byte) : (addWrap a b).toNat = (a.toNat + b.toNat) % 256 := u8_toNat _

theorem subWrap_toNat (a b : Byte) : (subWrap a b).toNat = (a.toNat + 256 - b.toNat) % 256 := u8_toNat _

theorem shiftedRight_toNat (b : Byte) : (shiftedRight b).toNat = b.toNat / 2 := by
  simp [shiftedRight, Nat.shiftRight_eq_div_pow]

theorem shiftedLeft_toNat (b : Byte) : (shiftedLeft b).toNat = b.toNat * 2 % 256 := by
  simp [shiftedLeft, Nat.shiftLeft_eq]

theorem bitOutRight_iff (b : Byte) : bitOutRight b = true ↔ b.toNat % 2 = 1 := by
  revert b; decide

theorem bitOutLeft_iff (b : Byte) : bitOutLeft b = true ↔ 128 ≤ b.toNat := by
  revert b; decide

theorem advancedIndex_toNat (s : State) (n : Nat) : (advancedIndex s n).toNat = (s.i.toNat + n) % 4096 := by
  simp only [advancedIndex, BitVec.toNat_setWidth, a12_toNat]
  omega

theorem glyphAddr_toNat (s : State) (x : Reg) : (glyphAddr s x).toNat = 5 * (getV s x).toNat := by
  have := (getV s x).isLt
  simp only [glyphAddr, BitVec.toNat_ofNat]
  omega

/-! ### The call stack (R31, R32) -/

theorem spAfterPush_bounded (s : State) (h : s.cfg.stackPolicy = .bounded) (hs : s.sp.val < 8) :
    (spAfterPush s).val = s.sp.val + 1 := by
  simp only [spAfterPush, h, Fin.ofNat]
  omega

theorem spAfterPush_wrap8 (s : State) (h : s.cfg.stackPolicy = .wrap8) :
    (spAfterPush s).val = (s.sp.val + 1) % 8 := by
  simp only [spAfterPush, h, Fin.ofNat]
  omega

theorem spAfterPop_bounded (s : State) (h : s.cfg.stackPolicy = .bounded) :
    (spAfterPop s).val = s.sp.val - 1 := by
  have := s.sp.isLt
  simp only [spAfterPop, h, Fin.ofNat]
  omega

theorem spAfterPop_wrap8 (s : State) (h : s.cfg.stackPolicy = .wrap8) :
    (spAfterPop s).val = (s.sp.val + 7) % 8 := by
  simp only [spAfterPop, h, Fin.ofNat]
  omega

theorem pushOverflows_iff (s : State) :
    pushOverflows s = true ↔ s.cfg.stackPolicy = .bounded ∧ s.sp = 8 := by
  simp [pushOverflows]

theorem popUnderflows_iff (s : State) :
    popUnderflows s = true ↔ s.cfg.stackPolicy = .bounded ∧ s.sp = 0 := by
  simp [popUnderflows]

theorem pushed_slot (s : State) (a : BitVec 16) (k : Fin 12) :
    (pushed s a).stack[k] = if k.val = s.sp.val then a else s.stack[k] := by
  simp only [pushed_stack, Fin.getElem_fin, Vector.getElem_set, eq_comm]

theorem returnAddress_toNat (s : State) : (returnAddress s).toNat = (s.pc.toNat + 2) % 4096 := by
  simp only [returnAddress, seqNext, BitVec.toNat_setWidth, a12_toNat]
  omega

/-! ### The key scan (R233) -/

theorem lowestHeld_none (s : State) : lowestHeld s = none ↔ ∀ k, held s k = false := by
  simp [lowestHeld, List.find?_eq_none]

theorem lowestHeld_some (s : State) (k : Key) :
    lowestHeld s = some k ↔ held s k = true ∧ ∀ j, j < k → held s j = false := by
  constructor
  · intro h
    refine ⟨by simpa using List.find?_some h, fun j hj => ?_⟩
    obtain ⟨_, as, bs, hl, hn⟩ := List.find?_eq_some_iff_append.mp h
    have hmem : j ∈ as ++ k :: bs := hl ▸ List.mem_finRange j
    have hpw : (as ++ k :: bs).Pairwise (· < ·) := hl ▸ List.pairwise_lt_finRange 16
    rcases List.mem_append.mp hmem with ha | hb
    · simpa using hn j ha
    · rcases List.mem_cons.mp hb with rfl | hb
      · exact absurd hj (lt_irrefl _)
      · have := (List.pairwise_cons.mp (List.pairwise_append.mp hpw).2.1).1 j hb
        exact absurd hj (not_lt.mpr this.le)
  · rintro ⟨hk, hj⟩
    cases h : lowestHeld s with
    | none => exact absurd hk (by simp [(lowestHeld_none s).mp h k])
    | some j =>
      have hheld : held s j = true := by simpa using List.find?_some h
      obtain ⟨_, as, bs, hl, hn⟩ := List.find?_eq_some_iff_append.mp h
      have hpw : (as ++ j :: bs).Pairwise (· < ·) := hl ▸ List.pairwise_lt_finRange 16
      have hmem : k ∈ as ++ j :: bs := hl ▸ List.mem_finRange k
      rcases lt_trichotomy j k with hlt | rfl | hgt
      · exact absurd hheld (by simp [hj j hlt])
      · rfl
      · rcases List.mem_append.mp hmem with ha | hb
        · exact absurd hk (by simpa using hn k ha)
        · rcases List.mem_cons.mp hb with rfl | hb
          · rfl
          · have := (List.pairwise_cons.mp (List.pairwise_append.mp hpw).2.1).1 k hb
            exact absurd this (not_lt.mpr hgt.le)

end Sys2Proof.Machine
end

