-- ==== Sys2Proof/Laws/Blocks.lean ====
section
/-! SUPPORT. What the block copies of FX55 and FX65, the digits of FX33 and the sprite loop of DXYN do. -/

namespace Sys2Proof.Machine

/-! ### Addresses of a block (R69) -/

theorem indexAddr_inj (s : State) {j k : Nat} (hj : j < 4096) (hk : k < 4096) :
    indexAddr s j = indexAddr s k ↔ j = k := by
  constructor
  · intro h
    have := congrArg BitVec.toNat h
    simp only [indexAddr, a12_toNat] at this
    omega
  · rintro rfl
    rfl

@[simp] theorem indexAddr_storeBlock (s : State) (n k : Nat) : indexAddr (storeBlock s n) k = indexAddr s k := by
  simp [indexAddr]

@[simp] theorem indexAddr_loadBlock (s : State) (n k : Nat) : indexAddr (loadBlock s n) k = indexAddr s k := by
  simp [indexAddr]

/-! ### FX55 (R194) -/

/-- The copy leaves every byte outside the block alone. -/
theorem storeBlock_outside (s : State) (n : Nat) (a : Addr) (h : ∀ k, k < n → a ≠ indexAddr s k) :
    readByte (storeBlock s n) a = readByte s a := by
  induction n with
  | zero => rfl
  | succ n ih =>
    rw [storeBlock, readByte_writeByte, if_neg (h n (by omega))]
    exact ih (fun k hk => h k (by omega))

/-- The k-th byte of the block is V[k]. -/
theorem storeBlock_inside (s : State) (n k : Nat) (hn : n ≤ 16) (hk : k < n) :
    readByte (storeBlock s n) (indexAddr s k) = getV s (Fin.ofNat 16 k) := by
  induction n with
  | zero => omega
  | succ n ih =>
    rw [storeBlock, readByte_writeByte]
    by_cases h : k = n
    · rw [if_pos (by rw [h]), h]
    · rw [if_neg (fun e => h ((indexAddr_inj s (by omega) (by omega)).mp e))]
      exact ih (by omega) (by omega)

/-! ### FX65 (R195) -/

theorem getV_loadBlock (s : State) (n : Nat) (r : Reg) (hn : n ≤ 16) :
    getV (loadBlock s n) r = if r.val < n then readByte s (indexAddr s r.val) else getV s r := by
  induction n with
  | zero => rfl
  | succ n ih =>
    have hv : (Fin.ofNat 16 n : Reg).val = n := Nat.mod_eq_of_lt (by omega)
    rw [loadBlock, getV_setV, ih (by omega)]
    by_cases h : r = Fin.ofNat 16 n
    · have hr : r.val = n := by rw [h, hv]
      rw [if_pos h, if_pos (by omega), hr]
    · have hne : r.val ≠ n := fun e => h (Fin.ext (e.trans hv.symm))
      rw [if_neg h]
      by_cases hlt : r.val < n
      · rw [if_pos hlt, if_pos (by omega)]
      · rw [if_neg hlt, if_neg (by omega)]

/-! ### FX33 (R193) -/

theorem hundreds_toNat (b : Byte) : (hundreds b).toNat = b.toNat / 100 := by
  have := b.isLt
  rw [hundreds, u8_toNat]
  omega

theorem tens_toNat (b : Byte) : (tens b).toNat = b.toNat / 10 % 10 := by
  rw [tens, u8_toNat]
  omega

theorem ones_toNat (b : Byte) : (ones b).toNat = b.toNat % 10 := by
  rw [ones, u8_toNat]
  omega

/-! ### DXYN (R211, R212) -/

theorem rowAt_putRow (d : Vector RowBits 32) (q r : Nat) (w : RowBits) (hq : q < 32) :
    rowAt (putRow d q w) r = if r = q then w else rowAt d r := by
  unfold rowAt putRow
  rw [Vector.getElem?_setIfInBounds]
  by_cases h : q = r
  · subst h
    simp [hq]
  · rw [if_neg h, if_neg (Ne.symm h)]

theorem rowAt_fin (d : Vector RowBits 32) (r : Fin 32) : rowAt d r.val = d[r] := by
  simp [rowAt]

theorem display_ext (d e : Vector RowBits 32) (h : ∀ r c, pixel d r c = pixel e r c) : d = e := by
  apply Vector.ext
  intro r hr
  apply BitVec.eq_of_getLsbD_eq
  intro j hj
  have := h ⟨r, hr⟩ ⟨63 - j, by omega⟩
  simpa [pixel, show 63 - (63 - j) = j by omega] using this

/-- Each row of the loop's display: XORed with its sprite row if the loop drew it. -/
theorem drawRows_row (s : State) (x0 y0 n : Nat) (h : y0 + n ≤ 32) (r : Nat) :
    rowAt (drawRows s x0 y0 n).1 r =
      if y0 ≤ r ∧ r < y0 + n then rowAt s.display r ^^^ spriteRow s x0 (r - y0) else rowAt s.display r := by
  induction n with
  | zero => simp [drawRows]
  | succ n ih =>
    have ih := ih (by omega)
    show rowAt (putRow (drawRows s x0 y0 n).1 (y0 + n) _) r = _
    rw [rowAt_putRow _ _ _ _ (by omega)]
    by_cases hr : r = y0 + n
    · subst hr
      have hrow : rowAt (drawRows s x0 y0 n).1 (y0 + n) = rowAt s.display (y0 + n) := by
        rw [ih, if_neg (by omega)]
      rw [if_pos rfl, if_pos (by omega), hrow, Nat.add_sub_cancel_left]
    · rw [if_neg hr, ih]
      by_cases hin : y0 ≤ r ∧ r < y0 + n
      · rw [if_pos hin, if_pos (by omega)]
      · rw [if_neg hin, if_neg (by omega)]

/-- The loop's collision flag: some drawn row of the starting display collides. -/
theorem drawRows_collides (s : State) (x0 y0 n : Nat) (h : y0 + n ≤ 32) :
    (drawRows s x0 y0 n).2 = true ↔
      ∃ r, r < n ∧ rowCollides (rowAt s.display (y0 + r)) (spriteRow s x0 r) = true := by
  induction n with
  | zero => simp [drawRows]
  | succ n ih =>
    have hrow : rowAt (drawRows s x0 y0 n).1 (y0 + n) = rowAt s.display (y0 + n) := by
      rw [drawRows_row s x0 y0 n (by omega), if_neg (by omega)]
    show ((drawRows s x0 y0 n).2 || rowCollides (rowAt (drawRows s x0 y0 n).1 (y0 + n)) (spriteRow s x0 n)) = true ↔ _
    rw [Bool.or_eq_true, ih (by omega), hrow]
    constructor
    · rintro (⟨r, hr, hc⟩ | hc)
      · exact ⟨r, by omega, hc⟩
      · exact ⟨n, by omega, hc⟩
    · rintro ⟨r, hr, hc⟩
      by_cases hn : r = n
      · exact .inr (hn ▸ hc)
      · exact .inl ⟨r, by omega, hc⟩

/-- Column `c` of a placed sprite byte: bit 7 stands at column `x0`, and bits past column 63 are lost (R212). -/
theorem spriteMask_column (b : Byte) (x0 c : Nat) (hc : c < 64) :
    (spriteMask b x0).getLsbD (63 - c) = (decide (x0 ≤ c ∧ c < x0 + 8) && b.getLsbD (7 - (c - x0))) := by
  simp only [spriteMask, BitVec.getLsbD_ushiftRight, BitVec.getLsbD_shiftLeft, BitVec.getLsbD_setWidth]
  by_cases h1 : x0 ≤ c
  · by_cases h2 : c < x0 + 8
    · rw [show x0 + (63 - c) - 56 = 7 - (c - x0) by omega]
      simp [h1, h2, show x0 + (63 - c) < 64 by omega, show ¬ x0 + (63 - c) < 56 by omega,
        show 7 - (c - x0) < 64 by omega]
    · simp [h2, show x0 + (63 - c) < 56 by omega]
  · simp [h1, show ¬ x0 + (63 - c) < 64 by omega]

end Sys2Proof.Machine
end

