-- ==== Sys2Proof/Laws/Decode.lean ====
section
/-! SUPPORT. The opcode map is unambiguous, the decoder follows it, and each field of a word reads back what was put there. -/

namespace Sys2Proof

/-! ### The opcode map (R95, R96) -/

theorem opcodeTable_length : opcodeTable.length = 34 := by decide

/-- No two rows of R96 match one word: on the bits that both fix, they differ. -/
theorem opcodeTable_disjoint : opcodeTable.Pairwise (fun r q => r.fixed &&& q.mask ≠ q.fixed &&& r.mask) := by
  decide

theorem rowMatches_iff (op : Opcode) (r : OpcodeRow) : rowMatches op r = true ↔ op &&& r.mask = r.fixed := by
  simp [rowMatches]

theorem row_unique {op : Opcode} {r q : OpcodeRow} (hr : r ∈ opcodeTable) (hq : q ∈ opcodeTable)
    (mr : rowMatches op r = true) (mq : rowMatches op q = true) : r = q := by
  by_contra hne
  have sym : Std.Symm (fun r q : OpcodeRow => r.fixed &&& q.mask ≠ q.fixed &&& r.mask) := ⟨fun _ _ h => Ne.symm h⟩
  have h := opcodeTable_disjoint.forall hr hq hne
  rw [rowMatches_iff] at mr mq
  refine h ?_
  rw [← mr, ← mq, BitVec.and_assoc, BitVec.and_assoc, BitVec.and_comm r.mask]

/-! ### The decoder (R95, R97, R98) -/

theorem decode_of_row {op : Opcode} {r : OpcodeRow} (hr : r ∈ opcodeTable) (mr : rowMatches op r = true) :
    decode op = .ok (r.build op) := by
  unfold decode
  cases hf : opcodeTable.find? (rowMatches op) with
  | none => exact absurd mr (by simpa using List.find?_eq_none.mp hf r hr)
  | some q =>
    have hq := row_unique hr (List.mem_of_find?_eq_some hf) mr (List.find?_some hf)
    rw [hq]

theorem decode_ok_iff (op : Opcode) (i : Instr) :
    decode op = .ok i ↔ ∃ r ∈ opcodeTable, rowMatches op r = true ∧ i = r.build op := by
  constructor
  · intro h
    unfold decode at h
    cases hf : opcodeTable.find? (rowMatches op) with
    | none => simp [hf] at h
    | some q =>
      simp only [hf, Except.ok.injEq] at h
      exact ⟨q, List.mem_of_find?_eq_some hf, List.find?_some hf, h.symm⟩
  · rintro ⟨r, hr, mr, rfl⟩
    exact decode_of_row hr mr

theorem decode_error_iff (op : Opcode) (e : DecodeReject) :
    decode op = .error e ↔ e = .invalidOpcode op ∧ ∀ r ∈ opcodeTable, ¬ rowMatches op r = true := by
  unfold decode
  cases hf : opcodeTable.find? (rowMatches op) with
  | none =>
    have h := List.find?_eq_none.mp hf
    simp only [Except.error.injEq]
    exact ⟨fun he => ⟨he.symm, h⟩, fun he => he.1.symm⟩
  | some q =>
    simp only [reduceCtorEq, false_iff, not_and, not_forall]
    exact fun _ => ⟨q, List.mem_of_find?_eq_some hf, by simpa using List.find?_some hf⟩

/-! ### The fields of a word (R91) -/

theorem extract_or (a b : Opcode) (k n : Nat) :
    (a ||| b).extractLsb' k n = a.extractLsb' k n ||| b.extractLsb' k n := by
  ext j hj
  simp

theorem extract_putX (x : Reg) : (putX x).extractLsb' 8 4 = BitVec.ofNat 4 x.val := by
  revert x; decide

theorem extract_putX_y (x : Reg) : (putX x).extractLsb' 4 4 = 0 := by
  revert x; decide

theorem extract_putX_nn (x : Reg) : (putX x).extractLsb' 0 8 = 0 := by
  revert x; decide

theorem extract_putX_n (x : Reg) : (putX x).extractLsb' 0 4 = 0 := by
  revert x; decide

theorem extract_putY (y : Reg) : (putY y).extractLsb' 4 4 = BitVec.ofNat 4 y.val := by
  revert y; decide

theorem extract_putY_x (y : Reg) : (putY y).extractLsb' 8 4 = 0 := by
  revert y; decide

theorem extract_putY_n (y : Reg) : (putY y).extractLsb' 0 4 = 0 := by
  revert y; decide

theorem extract_putNN (nn : Byte) : (putNN nn).extractLsb' 0 8 = nn := by
  ext j hj
  simp only [putNN, BitVec.getElem_extractLsb', BitVec.getLsbD_setWidth]
  simp [hj, show j < 16 by omega]

theorem extract_putNN_x (nn : Byte) : (putNN nn).extractLsb' 8 4 = 0 := by
  ext j hj
  simp [putNN]

theorem extract_putNNN (nnn : Addr) : (putNNN nnn).extractLsb' 0 12 = nnn := by
  ext j hj
  simp only [putNNN, BitVec.getElem_extractLsb', BitVec.getLsbD_setWidth]
  simp [hj, show j < 16 by omega]

theorem extract_putN (n : Nat) : (putN n).extractLsb' 0 4 = BitVec.ofNat 4 n := by
  ext j hj
  simp only [putN, BitVec.getElem_extractLsb', BitVec.getLsbD_setWidth]
  simp [hj, show j < 16 by omega]

theorem extract_putN_x (n : Nat) : (putN n).extractLsb' 8 4 = 0 := by
  ext j hj
  simp only [putN, BitVec.getElem_extractLsb', BitVec.getLsbD_setWidth]
  simp [BitVec.getLsbD_of_ge (BitVec.ofNat 4 n) (8 + j) (by omega)]

theorem extract_putN_y (n : Nat) : (putN n).extractLsb' 4 4 = 0 := by
  ext j hj
  simp [putN]

theorem toFin_ofReg (x : Reg) : (BitVec.ofNat 4 x.val).toFin = x := by
  revert x; decide

/-! ### The fields under a row's mask -/

theorem and_or_mask (a b m : Opcode) : (a ||| b) &&& m = (a &&& m) ||| (b &&& m) := by
  ext j hj
  simp [Bool.and_or_distrib_right]

theorem putX_mask (x : Reg) : putX x &&& 0xF000#16 = 0 := by
  revert x; decide

theorem putY_mask (y : Reg) : putY y &&& 0xF000#16 = 0 := by
  revert y; decide

theorem small_mask (a : Opcode) (h : a.toNat < 4096) : a &&& 0xF000#16 = 0 := by
  apply BitVec.eq_of_toNat_eq
  have : a.toNat &&& 61440 = 0 := by
    apply Nat.eq_of_testBit_eq
    intro j
    rw [Nat.testBit_and, Nat.zero_testBit]
    by_cases hj : j < 12
    · have : ∀ j < 12, Nat.testBit 61440 j = false := by decide
      rw [this j hj, Bool.and_false]
    · rw [Nat.testBit_lt_two_pow (lt_of_lt_of_le h (Nat.pow_le_pow_right (n := 2) (by decide) (by omega : 12 ≤ j))),
        Bool.false_and]
  simpa using this

theorem putNN_mask (nn : Byte) : putNN nn &&& 0xF000#16 = 0 :=
  small_mask _ (by have := nn.isLt; simp only [putNN, BitVec.toNat_setWidth]; omega)

theorem putNNN_mask (nnn : Addr) : putNNN nnn &&& 0xF000#16 = 0 :=
  small_mask _ (by have := nnn.isLt; simp only [putNNN, BitVec.toNat_setWidth]; omega)

theorem putN_mask (n : Nat) : putN n &&& 0xF000#16 = 0 :=
  small_mask _ (by have := (BitVec.ofNat 4 n).isLt; simp only [putN, BitVec.toNat_setWidth]; omega)

/-! ### The bytes of a word (R67) -/

theorem wordOfBytes_split (op : Opcode) : wordOfBytes (highByte op) (lowByte op) = op := by
  apply BitVec.eq_of_getLsbD_eq
  intro j hj
  simp only [wordOfBytes, highByte, lowByte, BitVec.getLsbD_append, BitVec.getLsbD_extractLsb']
  by_cases h : j < 8
  · simp [h]
  · simp [h, show j - 8 < 8 by omega, show 8 + (j - 8) = j by omega]

end Sys2Proof
end

