-- ==== Sys2Proof/Laws/PerInstr.lean ====
section
/-! SUPPORT. For each instruction: its word lies in one row of the opcode map, and that row's fields give the instruction
back. -/

namespace Sys2Proof.Laws.EncodeRow

/-- The word of a well-formed `i` matches a row of R96 whose fields rebuild `i`. -/
def Statement (i : Instr) : Prop :=
  i.wellFormed = true → ∃ r ∈ opcodeTable, rowMatches (encode i) r = true ∧ r.build (encode i) = i

/-- The statement from the row at index `k`. -/
theorem of_row {i : Instr} (k : Nat) (r : OpcodeRow) (hk : opcodeTable[k]? = some r)
    (hm : encode i &&& r.mask = r.fixed) (hb : r.build (encode i) = i) : Statement i :=
  fun _ => ⟨r, List.mem_of_getElem? hk, (rowMatches_iff _ _).mpr hm, hb⟩

/-! ### The operand forms of R92 -/

theorem form_NNN (c : Opcode) (nnn : Addr) (hc : c.extractLsb' 0 12 = 0) :
    (c ||| putNNN nnn) &&& 0xF000#16 = c &&& 0xF000#16 ∧ opNNN (c ||| putNNN nnn) = nnn := by
  refine ⟨?_, ?_⟩
  · simp [and_or_mask, putNNN_mask]
  · simp [opNNN, extract_or, hc, extract_putNNN]

theorem form_XNN (c : Opcode) (x : Reg) (nn : Byte) (hx : c.extractLsb' 8 4 = 0) (hn : c.extractLsb' 0 8 = 0) :
    (c ||| putX x ||| putNN nn) &&& 0xF000#16 = c &&& 0xF000#16 ∧
      opX (c ||| putX x ||| putNN nn) = x ∧ opNN (c ||| putX x ||| putNN nn) = nn := by
  refine ⟨?_, ?_, ?_⟩
  · simp [and_or_mask, putX_mask, putNN_mask]
  · simp [opX, extract_or, hx, extract_putX, extract_putNN_x]
  · simp [opNN, extract_or, hn, extract_putX_nn, extract_putNN]

theorem form_XYN (c : Opcode) (x y : Reg) (n : Nat) (hn : n < 16)
    (hx : c.extractLsb' 8 4 = 0) (hy : c.extractLsb' 4 4 = 0) (h0 : c.extractLsb' 0 4 = 0) :
    (c ||| putX x ||| putY y ||| putN n) &&& 0xF000#16 = c &&& 0xF000#16 ∧
      opX (c ||| putX x ||| putY y ||| putN n) = x ∧ opY (c ||| putX x ||| putY y ||| putN n) = y ∧
      opN (c ||| putX x ||| putY y ||| putN n) = n := by
  refine ⟨?_, ?_, ?_, ?_⟩
  · simp [and_or_mask, putX_mask, putY_mask, putN_mask]
  · simp [opX, extract_or, hx, extract_putX, extract_putY_x, extract_putN_x]
  · simp [opY, extract_or, hy, extract_putX_y, extract_putY, extract_putN_y]
  · simp [opN, extract_or, h0, extract_putX_n, extract_putY_n, extract_putN, Nat.mod_eq_of_lt hn]

/-! ### One lemma per instruction -/

theorem cls : Statement .cls := of_row 0 _ rfl (by decide) (by decide)

theorem ret : Statement .ret := of_row 1 _ rfl (by decide) (by decide)

theorem jp (nnn : Addr) : Statement (.jp nnn) :=
  have h := form_NNN 0x1000 nnn (by decide)
  of_row 2 _ rfl h.1 (congrArg Instr.jp h.2)

theorem call (nnn : Addr) : Statement (.call nnn) :=
  have h := form_NNN 0x2000 nnn (by decide)
  of_row 3 _ rfl h.1 (congrArg Instr.call h.2)

theorem seImm (x : Reg) (nn : Byte) : Statement (.seImm x nn) :=
  have h := form_XNN 0x3000 x nn (by decide) (by decide)
  of_row 4 _ rfl h.1 (congrArg₂ Instr.seImm h.2.1 h.2.2)

theorem sneImm (x : Reg) (nn : Byte) : Statement (.sneImm x nn) :=
  have h := form_XNN 0x4000 x nn (by decide) (by decide)
  of_row 5 _ rfl h.1 (congrArg₂ Instr.sneImm h.2.1 h.2.2)

theorem seReg (x y : Reg) : Statement (.seReg x y) :=
  of_row 6 _ rfl (by revert x y; decide) (by revert x y; decide)

theorem ldImm (x : Reg) (nn : Byte) : Statement (.ldImm x nn) :=
  have h := form_XNN 0x6000 x nn (by decide) (by decide)
  of_row 7 _ rfl h.1 (congrArg₂ Instr.ldImm h.2.1 h.2.2)

theorem addImm (x : Reg) (nn : Byte) : Statement (.addImm x nn) :=
  have h := form_XNN 0x7000 x nn (by decide) (by decide)
  of_row 8 _ rfl h.1 (congrArg₂ Instr.addImm h.2.1 h.2.2)

theorem ldReg (x y : Reg) : Statement (.ldReg x y) :=
  of_row 9 _ rfl (by revert x y; decide) (by revert x y; decide)

theorem orReg (x y : Reg) : Statement (.orReg x y) :=
  of_row 10 _ rfl (by revert x y; decide) (by revert x y; decide)

theorem andReg (x y : Reg) : Statement (.andReg x y) :=
  of_row 11 _ rfl (by revert x y; decide) (by revert x y; decide)

theorem xorReg (x y : Reg) : Statement (.xorReg x y) :=
  of_row 12 _ rfl (by revert x y; decide) (by revert x y; decide)

theorem addReg (x y : Reg) : Statement (.addReg x y) :=
  of_row 13 _ rfl (by revert x y; decide) (by revert x y; decide)

theorem subReg (x y : Reg) : Statement (.subReg x y) :=
  of_row 14 _ rfl (by revert x y; decide) (by revert x y; decide)

theorem shr (x y : Reg) : Statement (.shr x y) :=
  of_row 15 _ rfl (by revert x y; decide) (by revert x y; decide)

theorem subn (x y : Reg) : Statement (.subn x y) :=
  of_row 16 _ rfl (by revert x y; decide) (by revert x y; decide)

theorem shl (x y : Reg) : Statement (.shl x y) :=
  of_row 17 _ rfl (by revert x y; decide) (by revert x y; decide)

theorem sneReg (x y : Reg) : Statement (.sneReg x y) :=
  of_row 18 _ rfl (by revert x y; decide) (by revert x y; decide)

theorem ldI (nnn : Addr) : Statement (.ldI nnn) :=
  have h := form_NNN 0xA000 nnn (by decide)
  of_row 19 _ rfl h.1 (congrArg Instr.ldI h.2)

theorem jpV0 (nnn : Addr) : Statement (.jpV0 nnn) :=
  have h := form_NNN 0xB000 nnn (by decide)
  of_row 20 _ rfl h.1 (congrArg Instr.jpV0 h.2)

theorem rnd (x : Reg) (nn : Byte) : Statement (.rnd x nn) :=
  have h := form_XNN 0xC000 x nn (by decide) (by decide)
  of_row 21 _ rfl h.1 (congrArg₂ Instr.rnd h.2.1 h.2.2)

theorem drw (x y : Reg) (n : Nat) : Statement (.drw x y n) := fun hw =>
  have hn : n < 16 := by simpa [Instr.wellFormed, heightFits] using hw
  have h := form_XYN 0xD000 x y n hn (by decide) (by decide) (by decide)
  of_row 22 _ rfl h.1 (by
    show Instr.drw _ _ _ = Instr.drw x y n
    exact congr (congrArg₂ Instr.drw h.2.1 h.2.2.1) h.2.2.2) hw

theorem skp (x : Reg) : Statement (.skp x) :=
  of_row 23 _ rfl (by revert x; decide) (by revert x; decide)

theorem sknp (x : Reg) : Statement (.sknp x) :=
  of_row 24 _ rfl (by revert x; decide) (by revert x; decide)

theorem ldVxDT (x : Reg) : Statement (.ldVxDT x) :=
  of_row 25 _ rfl (by revert x; decide) (by revert x; decide)

theorem ldVxK (x : Reg) : Statement (.ldVxK x) :=
  of_row 26 _ rfl (by revert x; decide) (by revert x; decide)

theorem ldDTVx (x : Reg) : Statement (.ldDTVx x) :=
  of_row 27 _ rfl (by revert x; decide) (by revert x; decide)

theorem ldSTVx (x : Reg) : Statement (.ldSTVx x) :=
  of_row 28 _ rfl (by revert x; decide) (by revert x; decide)

theorem addI (x : Reg) : Statement (.addI x) :=
  of_row 29 _ rfl (by revert x; decide) (by revert x; decide)

theorem ldF (x : Reg) : Statement (.ldF x) :=
  of_row 30 _ rfl (by revert x; decide) (by revert x; decide)

theorem ldB (x : Reg) : Statement (.ldB x) :=
  of_row 31 _ rfl (by revert x; decide) (by revert x; decide)

theorem storeRegs (x : Reg) : Statement (.storeRegs x) :=
  of_row 32 _ rfl (by revert x; decide) (by revert x; decide)

theorem loadRegs (x : Reg) : Statement (.loadRegs x) :=
  of_row 33 _ rfl (by revert x; decide) (by revert x; decide)

end Sys2Proof.Laws.EncodeRow
end

