-- ==== Sys2Proof/Laws/Step.lean ====
section
/-! SUPPORT. What a step can do, said once: the inversion of step, and the schedules. -/

namespace Sys2Proof.Machine

@[simp] theorem advance_eq (s : State) : advance s = .next (commit (seqNext s) false s) := rfl

@[simp] theorem finishAt_eq (next : Nat) (s : State) : finishAt next s = .next (commit next false s) := rfl

@[simp] theorem skipIf_eq (c : Bool) (s : State) :
    skipIf c s = .next (commit (if c then seqNext s + 2 else seqNext s) false s) := rfl

@[simp] theorem raiseFault_eq (r : FaultRecord) (s : State) : raiseFault r s = .next { s with fault := some r } := rfl

/-- Everything a step that answers a next state can be (R131): an instruction's meaning, or InvalidOpcode. -/
theorem step_next_cases {s t : State} (h : step s = .next t) :
    s.fault = none ∧
      ((∃ i, decode (fetchOpcode s) = .ok i ∧ exec i s = .next t) ∨
        (decode (fetchOpcode s) = .error (.invalidOpcode (fetchOpcode s)) ∧
          t = { s with fault := some (.invalidOpcode (fetchOpcode s) s.pc) })) := by
  unfold step at h
  cases hf : s.fault with
  | some r => simp [hf] at h
  | none =>
    refine ⟨rfl, ?_⟩
    cases hd : decode (fetchOpcode s) with
    | ok i => exact .inl ⟨i, rfl, by simpa [hf, hd] using h⟩
    | error e =>
      have he := ((decode_error_iff _ _).mp hd).1
      subst he
      refine .inr ⟨rfl, ?_⟩
      simpa [hf, hd, raiseInvalidOpcode, eq_comm] using h

/-- A step that answers no next state is on a halted core (R120). -/
theorem stepOp_cases (s : State) : step s = .next (stepOp s) ∨ stepOp s = s := by
  unfold stepOp
  cases h : step s <;> simp

/-- An invariant of construction, of every step and of the two other host operations holds after every schedule. -/
theorem runSchedule_keeps {P : State → Prop} (hstep : ∀ s t, P s → step s = .next t → P t)
    (hkeys : ∀ s keys, P s → P (setKeys keys s)) (htimers : ∀ s, P s → P (advanceTimers s))
    (ops : List HostOp) (s : State) (h : P s) : P (runSchedule ops s) := by
  induction ops generalizing s with
  | nil => exact h
  | cons op ops ih =>
    refine ih _ ?_
    cases op with
    | setKeys keys => exact hkeys s keys h
    | advanceTimers => exact htimers s h
    | step =>
      rcases stepOp_cases s with hn | he
      · exact hstep s _ h hn
      · show P (stepOp s)
        rw [he]
        exact h

/-- Fetching after a word was placed at PC gives that word (log entry 9). -/
theorem fetchOpcode_placeOpcode (s : State) (op : Opcode) : fetchOpcode (placeOpcode s op) = op := by
  have hne : s.pc ≠ secondByteAddr s := by
    intro h
    have := congrArg BitVec.toNat h
    have := s.pc.isLt
    simp only [secondByteAddr, a12_toNat] at *
    omega
  have hhi : readByte (placeOpcode s op) s.pc = highByte op := by
    show readByte (writeByte (writeByte s s.pc (highByte op)) (secondByteAddr s) (lowByte op)) s.pc = _
    rw [readByte_writeByte, if_neg hne, readByte_writeByte, if_pos rfl]
  have hlo : readByte (placeOpcode s op) (secondByteAddr s) = lowByte op := by
    show readByte (writeByte (writeByte s s.pc (highByte op)) (secondByteAddr s) (lowByte op)) (secondByteAddr s) = _
    rw [readByte_writeByte, if_pos rfl]
  show wordOfBytes (readByte (placeOpcode s op) s.pc) (readByte (placeOpcode s op) (secondByteAddr s)) = op
  rw [hhi, hlo, wordOfBytes_split]

/-- The step after withFetchWord runs exactly the instruction that decodeTableWord reads. -/
theorem step_withFetchWord (s : State) (nbits w : Nat) (i : Instr) (h : decodeTableWord nbits w = some i) :
    step (s.withFetchWord nbits w) = exec i (s.withFetchWord nbits w) := by
  have hd : decode (tableWord nbits w) = .ok i := by
    simp only [decodeTableWord, decodeBytes, wordOfBytes_split] at h
    cases hd : decode (tableWord nbits w) with
    | ok j => simpa [hd] using h
    | error e => simp [hd] at h
  have hf : fetchOpcode (s.withFetchWord nbits w) = tableWord nbits w := fetchOpcode_placeOpcode s _
  have hn : (s.withFetchWord nbits w).fault = none := rfl
  unfold step
  rw [hn, hf, hd]

end Sys2Proof.Machine
end

