-- ==== Sys2Proof/Tests/Slice0.lean ====
section
/-! SUPPORT. The model's own tests: well-formedness, decoding of words written out from the spec's encodings, one-step vectors
of 95_test_vectors.md, and a witness for each statement that has hypotheses. Expected results come from the spec. -/

namespace Sys2Proof.Tests
open Sys2Proof.Machine

/-! ### Well-formedness: each check refuses an ill-formed term -/

theorem test_height_16_refused : (Instr.drw 0 1 16).wellFormed = false := by decide
theorem test_height_15_accepted : (Instr.drw 0 1 15).wellFormed = true := by decide

/-- The default font with one byte changed. -/
def fontWith (k : Nat) (b : Byte) : Vector Byte 80 := Config.defaultFont.setIfInBounds k b

theorem test_default_font_accepted : Config.reset.wellFormed = true := by decide
theorem test_glyph_zero_changed_refused :
    ({ Config.reset with font := fontWith 4 0x90 } : Config).wellFormed = false := by decide
theorem test_glyph_low_bits_set_refused :
    ({ Config.reset with font := fontWith 79 0x81 } : Config).wellFormed = false := by decide

/-! ### Decoding: one word per instruction, written bit by bit from the "encoding" of its table row -/

theorem test_decode_cls : decode 0b0000000011100000 = .ok (.cls) := by rfl
theorem test_decode_ret : decode 0b0000000011101110 = .ok (.ret) := by rfl
theorem test_decode_jp : decode 0b0001_001000110100 = .ok (.jp 0x234) := by rfl
theorem test_decode_call : decode 0b0010_001000010000 = .ok (.call 0x210) := by rfl
theorem test_decode_seImm : decode 0b0011_0000_00000101 = .ok (.seImm 0 5) := by rfl
theorem test_decode_sneImm : decode 0b0100_0011_00010001 = .ok (.sneImm 3 0x11) := by rfl
theorem test_decode_seReg : decode 0b0101_0001_0010_0000 = .ok (.seReg 1 2) := by rfl
theorem test_decode_ldImm : decode 0b0110_1010_00101111 = .ok (.ldImm 10 0x2F) := by rfl
theorem test_decode_addImm : decode 0b0111_0001_00000010 = .ok (.addImm 1 2) := by rfl
theorem test_decode_ldReg : decode 0b1000_0001_0010_0000 = .ok (.ldReg 1 2) := by rfl
theorem test_decode_orReg : decode 0b1000_0001_0010_0001 = .ok (.orReg 1 2) := by rfl
theorem test_decode_andReg : decode 0b1000_0001_0010_0010 = .ok (.andReg 1 2) := by rfl
theorem test_decode_xorReg : decode 0b1000_0001_0010_0011 = .ok (.xorReg 1 2) := by rfl
theorem test_decode_addReg : decode 0b1000_1111_0001_0100 = .ok (.addReg 15 1) := by rfl
theorem test_decode_subReg : decode 0b1000_0001_0010_0101 = .ok (.subReg 1 2) := by rfl
theorem test_decode_shr : decode 0b1000_0001_0010_0110 = .ok (.shr 1 2) := by rfl
theorem test_decode_subn : decode 0b1000_0001_0010_0111 = .ok (.subn 1 2) := by rfl
theorem test_decode_shl : decode 0b1000_0001_0010_1110 = .ok (.shl 1 2) := by rfl
theorem test_decode_sneReg : decode 0b1001_0001_0010_0000 = .ok (.sneReg 1 2) := by rfl
theorem test_decode_ldI : decode 0b1010_001011110000 = .ok (.ldI 0x2F0) := by rfl
theorem test_decode_jpV0 : decode 0b1011_111110000000 = .ok (.jpV0 0xF80) := by rfl
theorem test_decode_rnd : decode 0b1100_0001_00001111 = .ok (.rnd 1 0x0F) := by rfl
theorem test_decode_drw : decode 0b1101_0000_0001_0101 = .ok (.drw 0 1 5) := by rfl
theorem test_decode_skp : decode 0b1110_0101_10011110 = .ok (.skp 5) := by rfl
theorem test_decode_sknp : decode 0b1110_0001_10100001 = .ok (.sknp 1) := by rfl
theorem test_decode_ldVxDT : decode 0b1111_0011_00000111 = .ok (.ldVxDT 3) := by rfl
theorem test_decode_ldVxK : decode 0b1111_0011_00001010 = .ok (.ldVxK 3) := by rfl
theorem test_decode_ldDTVx : decode 0b1111_0101_00010101 = .ok (.ldDTVx 5) := by rfl
theorem test_decode_ldSTVx : decode 0b1111_0001_00011000 = .ok (.ldSTVx 1) := by rfl
theorem test_decode_addI : decode 0b1111_0010_00011110 = .ok (.addI 2) := by rfl
theorem test_decode_ldF : decode 0b1111_0000_00101001 = .ok (.ldF 0) := by rfl
theorem test_decode_ldB : decode 0b1111_0000_00110011 = .ok (.ldB 0) := by rfl
theorem test_decode_storeRegs : decode 0b1111_0011_01010101 = .ok (.storeRegs 3) := by rfl
theorem test_decode_loadRegs : decode 0b1111_0011_01100101 = .ok (.loadRegs 3) := by rfl

/-! ### Refused words (vectors F2 to F10) -/

theorem test_refuse_0000 : decode 0x0000 = .error (.invalidOpcode 0x0000) := by rfl
theorem test_refuse_01E0 : decode 0x01E0 = .error (.invalidOpcode 0x01E0) := by rfl
theorem test_refuse_5121 : decode 0x5121 = .error (.invalidOpcode 0x5121) := by rfl
theorem test_refuse_812F : decode 0x812F = .error (.invalidOpcode 0x812F) := by rfl
theorem test_refuse_9121 : decode 0x9121 = .error (.invalidOpcode 0x9121) := by rfl
theorem test_refuse_E1A2 : decode 0xE1A2 = .error (.invalidOpcode 0xE1A2) := by rfl
theorem test_refuse_F075 : decode 0xF075 = .error (.invalidOpcode 0xF075) := by rfl
theorem test_refuse_one_byte : decodeBytes [0x12] = .error (.truncated 1) := by rfl

/-! ### Small states -/

/-- A configuration with both profiles alike. -/
def cfgOf (p : Profile) (q : StackPolicy) : Config :=
  { shiftProfile := p, memIncProfile := p, stackPolicy := q, clsSetsDrawn := false, font := Config.defaultFont }

/-- A fresh machine with legacy profiles and the bounded stack. -/
def legacy0 : State := State.fresh (cfgOf .legacy .bounded) []

/-- A fresh machine with modern profiles and the bounded stack. -/
def modern0 : State := State.fresh (cfgOf .modern .bounded) []

/-- Set some registers. -/
def withV (s : State) : List (Reg × Byte) → State
  | [] => s
  | (x, b) :: rest => withV (setV s x b) rest

/-- Set one key held. -/
def withKey (s : State) (k : Key) : State := { s with keys := s.keys.set k true }

/-- The state after one step that runs the word `w` at PC; a state no test expects if there is none. -/
def run (s : State) (w : Nat) : State :=
  match step (s.withFetchWord 16 w) with
  | .next t => t
  | .fault _ => { s with draws := 99 }
  | .refused _ => { s with draws := 99 }

/-! ### One-step vectors of 95_test_vectors.md, sections 1 and 2 -/

theorem test_step_sample : (run legacy0 0x602A).pc = 0x202 ∧ getV (run legacy0 0x602A) 0 = 0x2A := by decide -- F1
theorem test_invalid_sets_fault :
    (run legacy0 0x0000).fault = some (.invalidOpcode 0x0000 0x200) ∧ (run legacy0 0x0000).pc = 0x200 := by decide -- F2
theorem test_fetch_wraps : (run { legacy0 with pc := 0xFFF } 0x12F0).pc = 0x2F0 := by decide -- F11
theorem test_sequential_wraps : (run { legacy0 with pc := 0xFFE } 0x6001).pc = 0x000 := by decide -- F12
theorem test_seImm_taken : (run (withV { legacy0 with pc := 0x208 } [(0, 5)]) 0x3005).pc = 0x20C := by decide -- C1
theorem test_seImm_wraps : (run { legacy0 with pc := 0xFFE } 0x3000).pc = 0x002 := by decide -- C9
theorem test_sneImm_equal : (run (withV { legacy0 with pc := 0x300 } [(3, 0x10)]) 0x4310).pc = 0x302 := by decide -- C3
theorem test_seReg_same : (run (withV legacy0 [(1, 7)]) 0x5110).pc = 0x204 := by decide -- C6
theorem test_sneReg_differ : (run (withV legacy0 [(1, 1), (2, 2)]) 0x9120).pc = 0x204 := by decide -- C7
theorem test_jp_odd : (run legacy0 0x1333).pc = 0x333 := by decide -- C12
theorem test_call_pushes : (run { legacy0 with pc := 0x204 } 0x2210).stack[0] = 0x206 ∧
    (run { legacy0 with pc := 0x204 } 0x2210).sp = 1 := by decide -- C13
theorem test_call_overflows : (run { legacy0 with sp := 8 } 0x2300).fault = some (.stackOverflow 0x200) := by decide -- C18
theorem test_ret_underflows : (run legacy0 0x00EE).fault = some (.stackUnderflow 0x200) := by decide -- C16
theorem test_ret_wraps : (run (State.fresh (cfgOf .legacy .wrap8) []) 0x00EE).sp = 7 := by decide -- C17
theorem test_jpV0_wraps : (run (withV legacy0 [(0, 0xFF)]) 0xBF80).pc = 0x07F := by decide -- C21
theorem test_jpV0_uses_V0 : (run (withV legacy0 [(5, 0x40)]) 0xB500).pc = 0x500 := by decide -- C22
theorem test_addImm_into_VF : getV (run (withV legacy0 [(15, 0xFE)]) 0x7F03) 15 = 0x01 := by decide -- A3
theorem test_addImm_no_flag : getV (run (withV legacy0 [(1, 0xFF), (15, 0x55)]) 0x7102) 15 = 0x55 := by decide -- A2
theorem test_ldReg_copies : getV (run (withV legacy0 [(2, 9)]) 0x8120) 1 = 9 := by decide -- A4
theorem test_orReg : getV (run (withV legacy0 [(1, 0x0F), (2, 0xF0)]) 0x8121) 1 = 0xFF := by decide -- A5
theorem test_andReg : getV (run (withV legacy0 [(1, 0x3C), (2, 0x0F)]) 0x8122) 1 = 0x0C := by decide -- A6
theorem test_xorReg : getV (run (withV legacy0 [(1, 0xFF), (2, 0x0F)]) 0x8123) 1 = 0xF0 := by decide -- A7
theorem test_addReg_carry : getV (run (withV legacy0 [(1, 0x80), (2, 0x80)]) 0x8124) 15 = 1 := by decide -- A10
theorem test_addReg_into_VF : getV (run (withV legacy0 [(15, 1), (1, 1)]) 0x8F14) 15 = 0 := by decide -- A14
theorem test_subReg_borrow : getV (run (withV legacy0 [(1, 5), (2, 10)]) 0x8125) 1 = 0xFB ∧
    getV (run (withV legacy0 [(1, 5), (2, 10)]) 0x8125) 15 = 0 := by decide -- S6
theorem test_subn_no_borrow : getV (run (withV legacy0 [(1, 5), (2, 10)]) 0x8127) 1 = 0x05 ∧
    getV (run (withV legacy0 [(1, 5), (2, 10)]) 0x8127) 15 = 1 := by decide -- S7
theorem test_shr_legacy : getV (run (withV legacy0 [(1, 3)]) 0x8016) 0 = 1 ∧
    getV (run (withV legacy0 [(1, 3)]) 0x8016) 1 = 1 ∧ getV (run (withV legacy0 [(1, 3)]) 0x8016) 15 = 1 := by decide -- A27
theorem test_shr_modern : getV (run (withV modern0 [(1, 3)]) 0x8016) 0 = 0 ∧
    getV (run (withV modern0 [(1, 3)]) 0x8016) 1 = 3 ∧ getV (run (withV modern0 [(1, 3)]) 0x8016) 15 = 0 := by decide -- A28
theorem test_shl_modern : getV (run (withV modern0 [(1, 0x81)]) 0x812E) 1 = 2 ∧
    getV (run (withV modern0 [(1, 0x81)]) 0x812E) 15 = 1 := by decide -- A32
theorem test_shl_legacy : getV (run (withV legacy0 [(1, 0x99), (2, 0x40)]) 0x812E) 1 = 0x80 ∧
    getV (run (withV legacy0 [(1, 0x99), (2, 0x40)]) 0x812E) 15 = 0 := by decide -- A36
theorem test_rnd_masks_the_draw : getV (run legacy0 0xC10F) 1 = Config.randomByte 0 &&& 0x0F := by rfl -- A37
theorem test_rnd_counts_the_draw : (run legacy0 0xC10F).draws = 1 ∧ (run legacy0 0xC10F).pc = 0x202 := by decide
theorem test_ldI : (run legacy0 0xA2F0).i = 0x2F0 := by decide -- M1
theorem test_addI_wraps : (run (withV { legacy0 with i := 0xF80 } [(2, 0xFF)]) 0xF21E).i = 0x07F := by decide -- M4
theorem test_ldF_unreduced : (run (withV legacy0 [(0, 0xFF)]) 0xF029).i = 0x4FB := by decide -- M7
theorem test_ldB_wraps : readByte (run (withV { legacy0 with i := 0xFFE } [(0, 0xFF)]) 0xF033) 0xFFF = 5 ∧
    readByte (run (withV { legacy0 with i := 0xFFE } [(0, 0xFF)]) 0xF033) 0x000 = 5 := by decide -- M12
theorem test_storeRegs_modern : (run (withV { modern0 with i := 0xFFC } [(0, 1), (1, 2), (2, 3), (3, 4)]) 0xF355).i = 0 ∧
    readByte (run (withV { modern0 with i := 0xFFC } [(0, 1), (1, 2), (2, 3), (3, 4)]) 0xF355) 0xFFF = 4 := by decide -- M16
theorem test_storeRegs_legacy : (run (withV { legacy0 with i := 0xFFE } [(3, 4)]) 0xF355).i = 0xFFE ∧
    readByte (run (withV { legacy0 with i := 0xFFE } [(3, 4)]) 0xF355) 0x001 = 4 := by decide -- M17
theorem test_loadRegs_glyph_zero : getV (run legacy0 0xF465) 0 = 0xF0 ∧ getV (run legacy0 0xF465) 4 = 0xF0 ∧
    (run legacy0 0xF465).i = 0 := by decide -- M21
theorem test_loadRegs_modern : (run { modern0 with i := 0x300 } 0xF365).i = 0x304 := by decide -- M19
theorem test_cls : (run { legacy0 with display := legacy0.display.set 3 1 } 0x00E0).display[3] = 0 ∧
    (run legacy0 0x00E0).drawn = false := by decide -- D1
theorem test_drw_clips : (run (withV { legacy0 with i := 0x300, mem := [(0x300, 0xFF)] } [(0, 60)]) 0xD011).display[0] = 0xF ∧
    (run (withV { legacy0 with i := 0x300, mem := [(0x300, 0xFF)] } [(0, 60)]) 0xD011).drawn = true := by decide -- D4
/-- A sprite byte C0 at 0x300, and the top left pixel set. -/
def overlap0 : State :=
  { legacy0 with i := 0x300, mem := [(0x300, 0xC0)], display := legacy0.display.set 0 0x8000000000000000 }
theorem test_drw_collides : getV (run overlap0 0xD011) 15 = 1 ∧
    (run overlap0 0xD011).display[0] = 0x4000000000000000 := by decide -- D10
theorem test_skp_low_nibble : (run (withV (withKey legacy0 7) [(5, 0x17)]) 0xE59E).pc = 0x204 := by decide -- K3
theorem test_sknp_held : (run (withKey { legacy0 with pc := 0x300 } 0) 0xE1A1).pc = 0x302 := by decide -- K5
theorem test_ldVxK_polls : (run (withV legacy0 [(3, 0x44)]) 0xF30A).pc = 0x200 ∧
    getV (run (withV legacy0 [(3, 0x44)]) 0xF30A) 3 = 0x44 := by decide -- K6
theorem test_ldVxK_lowest : getV (run (withKey (withKey legacy0 9) 3) 0xF30A) 3 = 3 := by decide -- K7
theorem test_ldVxDT : getV (run { legacy0 with dt := 0x3C } 0xF307) 3 = 0x3C := by decide -- K9
theorem test_ldDTVx : (run (withV legacy0 [(5, 7)]) 0xF515).dt = 7 := by decide -- K10
theorem test_ldSTVx : (run (withV legacy0 [(1, 2)]) 0xF118).st = 2 ∧
    soundActive (run (withV legacy0 [(1, 2)]) 0xF118) = true := by decide -- K11
theorem test_advance_floor : (advanceTimers (advanceTimers { legacy0 with dt := 1 })).dt = 0 := by decide -- K12
theorem test_halted_core_ticks : (advanceTimers (run { legacy0 with dt := 3 } 0x0000)).dt = 2 := by decide -- F15

/-- The machine Construct builds, and the reset state where it builds none. -/
def built (image : List Byte) : State :=
  match construct (some image) (cfgOf .legacy .bounded) with
  | .ok s => s
  | .error _ => { State.reset with draws := 99 }

theorem test_construct_image : readByte (built [0x12, 0x34]) 0x201 = 0x34 ∧ readByte (built [0x12, 0x34]) 0x202 = 0 ∧
    readByte (built [0x12, 0x34]) 0x04F = 0x80 ∧ (built [0x12, 0x34]).draws = 0 := by decide -- B1
theorem test_reset_step_faults : (stepOp State.reset).fault = some (.invalidOpcode 0x0000 0x200) := by decide -- B3

/-! ### Witnesses: a state and operands that meet each statement's hypotheses together -/

/-- A running machine whose next word is `w`. -/
def at0 (s : State) (w : Nat) : State := s.withFetchWord 16 w

theorem witness_well_formed : (Instr.drw 15 15 15).wellFormed = true := by decide -- O1
theorem witness_word_decodes : decode 0xDFFF = .ok (.drw 15 15 15) := by rfl -- O2
theorem witness_step_runs : (at0 legacy0 0x6A2F).fault = none ∧
    decode (wordOfBytes (readByte (at0 legacy0 0x6A2F) (at0 legacy0 0x6A2F).pc)
      (readByte (at0 legacy0 0x6A2F) (a12 ((at0 legacy0 0x6A2F).pc.toNat + 1)))) = .ok (.ldImm 10 0x2F) :=
  ⟨rfl, by rfl⟩ -- O7
theorem witness_invalid_word : State.reset.fault = none ∧ invalidByGroup (fetchOpcode State.reset) :=
  ⟨rfl, .inl (by decide)⟩ -- O8, group 0
theorem witness_invalid_group_5_9 : invalidByGroup 0x5121 ∧ invalidByGroup 0x912F :=
  ⟨.inr (.inl (by decide)), .inr (.inl (by decide))⟩ -- O4, O8
theorem witness_invalid_group_8 : invalidByGroup 0x8008 ∧ invalidByGroup 0x800F :=
  ⟨.inr (.inr (.inl (by decide))), .inr (.inr (.inl (by decide)))⟩ -- O4, O8
theorem witness_invalid_group_E_F : invalidByGroup 0xE09D ∧ invalidByGroup 0xF066 :=
  ⟨.inr (.inr (.inr (.inl (by decide)))), .inr (.inr (.inr (.inr (by decide))))⟩ -- O4, O8
theorem witness_halted : (run legacy0 0x0000).fault = some (.invalidOpcode 0x0000 0x200) := by decide -- O9, O51
theorem witness_call_faults : ({ legacy0 with sp := 8 } : State).fault = none ∧
    exec (.call 0x300) { legacy0 with sp := 8 } = .next { legacy0 with sp := 8, fault := some (.stackOverflow 0x200) } :=
  ⟨rfl, by rfl⟩ -- O11, O19
theorem witness_ret_faults : legacy0.fault = none ∧
    exec .ret legacy0 = .next { legacy0 with fault := some (.stackUnderflow 0x200) } := ⟨rfl, by rfl⟩ -- O11, O19
theorem witness_draw_hint : decode (fetchOpcode (at0 legacy0 0xD010)) = .ok (.drw 0 1 0) ∧
    step (at0 legacy0 0xD010) = .next (run legacy0 0xD010) ∧ (run legacy0 0xD010).fault = none :=
  ⟨by rfl, by rfl, by rfl⟩ -- O12
theorem witness_key_operand : (getV (withV legacy0 [(5, 0xFF)]) 5).toNat % 16 = (15 : Key).val := by decide -- O16
theorem witness_call_room : ¬ (({ legacy0 with sp := 7 } : State).cfg.stackPolicy = .bounded ∧
    ({ legacy0 with sp := 7 } : State).sp = 8) := by decide -- O17 bounded
theorem witness_call_wrap8 : (State.fresh (cfgOf .legacy .wrap8) []).cfg.stackPolicy = .wrap8 := by decide -- O17, O18 wrap8
theorem witness_ret_room : ¬ (({ legacy0 with sp := 1 } : State).cfg.stackPolicy = .bounded ∧
    ({ legacy0 with sp := 1 } : State).sp = 0) := by decide -- O18 bounded

/-- The fresh machines meet the invariant, under both policies. -/
theorem witness_inv (p : Profile) (q : StackPolicy) : (State.fresh (cfgOf p q) []).Inv :=
  { memCanonical := ⟨List.Pairwise.nil, by simp [State.fresh]⟩
    indexInRange := by simp [State.fresh]
    slotsAreAddresses := fun k => by simp [State.fresh]
    upperSlotsZero := fun k _ => by simp [State.fresh]
    wrapPointer := fun _ => by simp [State.fresh] }

theorem witness_call_return : legacy0.Inv ∧ ¬ (legacy0.cfg.stackPolicy = .bounded ∧ legacy0.sp = 8) :=
  ⟨witness_inv .legacy .bounded, by decide⟩ -- O20
theorem witness_call_return_wrap8 : (State.fresh (cfgOf .modern .wrap8) []).Inv ∧
    ¬ ((State.fresh (cfgOf .modern .wrap8) []).cfg.stackPolicy = .bounded ∧
      (State.fresh (cfgOf .modern .wrap8) []).sp = 8) :=
  ⟨witness_inv .modern .wrap8, by decide⟩ -- O20
theorem witness_eight_pushes : legacy0.cfg.stackPolicy = .bounded ∧
    legacy0.sp.val + (List.replicate 8 (0x202 : BitVec 16)).length ≤ 8 := by decide -- O21
theorem witness_profiles : legacy0.cfg.shiftProfile = .legacy ∧ modern0.cfg.shiftProfile = .modern ∧
    modern0.cfg.memIncProfile = .modern := by decide -- O27, O28, O34, O35
theorem witness_store_next : exec (.storeRegs 1) { legacy0 with i := 0x202 } =
      .next (commit 0x202 false (bumpIndex 1 (storeBlock { legacy0 with i := 0x202 } 2))) ∧
    (0 : Reg) ≤ 1 ∧ (1 : Reg) ≤ 1 ∧
    a12 (({ legacy0 with i := 0x202 } : State).pc.toNat + 2) = indexAddr { legacy0 with i := 0x202 } 0 ∧
    a12 (({ legacy0 with i := 0x202 } : State).pc.toNat + 3) = indexAddr { legacy0 with i := 0x202 } 1 :=
  ⟨by rfl, by decide, by decide, by decide, by decide⟩ -- O36
theorem witness_collision : spritePixel legacy0 0 1 5 0 0 = true ∧
    pixel (legacy0.display.set 0 0x8000000000000000) 0 0 = true := by decide -- O38, set pixel
theorem witness_no_collision : (∀ r c, spritePixel legacy0 0 1 5 r c = true → pixel legacy0.display r c = false) :=
  fun r c _ => by simp [pixel, legacy0, State.fresh] -- O38, clear display
theorem witness_draw_operands : (0 : Reg) ≠ regVF ∧ (14 : Reg) ≠ regVF := by decide -- O39
theorem witness_key_held : (withKey legacy0 15).keys[(15 : Key)] = true ∧
    ∀ j : Key, j < 15 → (withKey legacy0 15).keys[j] = false := by decide -- O40
theorem witness_no_key : ∀ k : Key, legacy0.keys[k] = false := by decide -- O40
theorem witness_key_wait : (at0 legacy0 0xF50A).fault = none ∧
    decode (fetchOpcode (at0 legacy0 0xF50A)) = .ok (.ldVxK 5) ∧ (∀ k : Key, (at0 legacy0 0xF50A).keys[k] = false) ∧
    ∀ op ∈ [HostOp.step, HostOp.advanceTimers], ∀ keys, op ≠ .setKeys keys :=
  ⟨rfl, by rfl, by decide, by simp⟩ -- O43
theorem witness_exec_next : exec (.ldImm 3 7) legacy0 = .next (commit 0x202 false (setV legacy0 3 7)) := by
  rfl -- O44, O45, O46
theorem witness_untouched_register : ¬ writesReg legacy0 (.ldImm 3 7) 4 ∧ ¬ writesByte legacy0 (.ldImm 3 7) 0 := by
  simp [writesReg, writesByte] -- O44, O46
theorem witness_flag_instruction : setsFlag (.addReg 0 1) = true ∧ setsFlag (.ldImm 3 7) = false ∧
    namesVF (.ldImm 3 7) = false := by decide -- O45
theorem witness_sound_writer : (∀ x, Instr.cls ≠ .ldSTVx x) ∧ ∃ x, Instr.ldSTVx 3 = .ldSTVx x := by
  simp -- O47
theorem witness_step_inv : legacy0.Inv ∧ step legacy0 = .next { legacy0 with fault := some (.invalidOpcode 0 0x200) } :=
  ⟨witness_inv .legacy .bounded, by rfl⟩ -- O49
theorem witness_step_inv_runs : (at0 legacy0 0x1234).Inv ∧
    step (at0 legacy0 0x1234) = .next (commit 0x234 false (at0 legacy0 0x1234)) :=
  ⟨{ memCanonical := placeOpcode_wf _ _ (witness_inv .legacy .bounded).memCanonical
     indexInRange := by decide
     slotsAreAddresses := by decide
     upperSlotsZero := by decide
     wrapPointer := fun h => by cases h }, by rfl⟩ -- O49
theorem witness_construct : construct (some []) (cfgOf .legacy .bounded) = .ok legacy0 ∧
    (cfgOf .legacy .bounded).wellFormed = true := ⟨by rfl, by decide⟩ -- O50, O53
theorem witness_sticky : ({ legacy0 with fault := some (.stackUnderflow 0x200) } : State).fault =
    some (.stackUnderflow 0x200) := by rfl -- O51

end Sys2Proof.Tests
end

section
/-! PROOFS. The general registers after an instruction (R21, R23): what no arm of exec writes, and the flag in VF. -/

namespace Sys2Proof.Machine

/-! ### A register that a write does not name -/

theorem getV_setV_of_ne {s : State} {x r : Reg} {b : Byte} (h : r ≠ x) : getV (setV s x b) r = getV s r := by
  rw [getV_setV, if_neg h]

theorem getV_setFlag_of_ne {s : State} {c : Bool} {r : Reg} (h : r ≠ regVF) : getV (setFlag c s) r = getV s r :=
  getV_setV_of_ne h

/-- A register outside the table of R23 for a shift is not VF, and the shift's result does not reach it. -/
theorem getV_shiftWrite_of_not_writesReg {s : State} {x y r : Reg} (h : ¬ writesReg s (.shr x y) r) :
    r ≠ regVF ∧ ∀ b, getV (shiftWrite s x y b) r = getV s r := by
  cases hp : s.cfg.shiftProfile with
  | legacy =>
    simp only [writesReg, hp, not_or] at h
    obtain ⟨hy, hx, hF⟩ := h
    exact ⟨hF, fun b => by rw [getV_shiftWrite_legacy s x y r b hp, if_neg (by simp [hx, hy])]⟩
  | modern =>
    simp only [writesReg, hp, not_or] at h
    obtain ⟨hx, hF⟩ := h
    exact ⟨hF, fun b => by rw [getV_shiftWrite_modern s x y r b hp, if_neg hx]⟩

/-- FX65 leaves every register above VX alone (R195). -/
theorem getV_loadBlock_of_not_le {s : State} {x r : Reg} (h : ¬ r ≤ x) :
    getV (loadBlock s (x.val + 1)) r = getV s r := by
  rw [getV_loadBlock s _ r (by omega), if_neg (mt Nat.le_of_lt_succ h)]

/-! ### The registers an instruction leaves alone (R23) -/

/-- The commit that ends a handler writes no general register (R126, R128). -/
theorem getV_of_next_commit {u t : State} {next : Nat} {drew : Bool} {r : Reg}
    (h : (.next (commit next drew u) : Result) = .next t) : getV t r = getV u r := by
  cases h
  rfl

/-- A fault's entry writes no general register (R129). -/
theorem getV_of_raiseFault {s t : State} {f : FaultRecord} {r : Reg} (h : raiseFault f s = .next t) :
    getV t r = getV s r := by
  cases h
  rfl

theorem getV_execRet {s t : State} {r : Reg} (h : execRet s = .next t) : getV t r = getV s r := by
  unfold execRet at h
  split at h
  · exact getV_of_raiseFault h
  · exact (getV_of_next_commit h).trans (getV_popped s r)

theorem getV_execCall {nnn : Addr} {s t : State} {r : Reg} (h : execCall nnn s = .next t) : getV t r = getV s r := by
  unfold execCall at h
  split at h
  · exact getV_of_raiseFault h
  · exact (getV_of_next_commit h).trans (getV_pushed s _ r)

/-- FX0A writes VX only where a key is held (R233). -/
theorem getV_execLdVxK_of_not_writesReg {x r : Reg} {s t : State} (h : execLdVxK x s = .next t)
    (hr : ¬ writesReg s (.ldVxK x) r) : getV t r = getV s r := by
  unfold execLdVxK at h
  cases hk : lowestHeld s with
  | none =>
    rw [hk] at h
    exact getV_of_next_commit h
  | some k =>
    rw [hk] at h
    have hheld : held s k = true := ((lowestHeld_some s k).mp hk).1
    exact (getV_of_next_commit h).trans (getV_setV_of_ne fun e => hr ⟨e, k, hheld⟩)

/-- No instruction changes a general register outside its row of the table of R23. -/
theorem getV_exec_of_not_writesReg {i : Instr} {s t : State} {r : Reg} (h : exec i s = .next t)
    (hr : ¬ writesReg s i r) : getV t r = getV s r := by
  cases i with
  | jp _ | seImm _ _ | sneImm _ _ | seReg _ _ | sneReg _ _ | jpV0 _ | skp _ | sknp _ => exact getV_of_next_commit h
  | cls | ldI _ | addI _ | ldF _ | ldB _ | ldDTVx _ | ldSTVx _ =>
    -- the handler updates one field of the state, and it is not `v`
    exact (getV_of_next_commit h).trans rfl
  | storeRegs x => exact (getV_of_next_commit h).trans (getV_storeBlock s (x.val + 1) r)
  | ret => exact getV_execRet h
  | call _ => exact getV_execCall h
  | ldImm _ _ | addImm _ _ | ldReg _ _ | orReg _ _ | andReg _ _ | xorReg _ _ | rnd _ _ | ldVxDT _ =>
    exact (getV_of_next_commit h).trans (getV_setV_of_ne hr)
  | addReg _ _ | subReg _ _ | subn _ _ =>
    obtain ⟨hx, hF⟩ := not_or.mp hr
    exact (getV_of_next_commit h).trans ((getV_setFlag_of_ne hF).trans (getV_setV_of_ne hx))
  | shr _ _ | shl _ _ =>
    obtain ⟨hF, hw⟩ := getV_shiftWrite_of_not_writesReg hr
    exact (getV_of_next_commit h).trans ((getV_setFlag_of_ne hF).trans (hw _))
  | drw _ _ _ => exact (getV_of_next_commit h).trans (getV_setFlag_of_ne hr)
  | ldVxK _ => exact getV_execLdVxK_of_not_writesReg h hr
  | loadRegs _ => exact (getV_of_next_commit h).trans (getV_loadBlock_of_not_le hr)

/-! ### VF (R21, R22) -/

theorem flagByte_eq_zero_or_one (c : Bool) : flagByte c = 0 ∨ flagByte c = 1 := by
  cases c
  · exact .inl rfl
  · exact .inr rfl

/-- The flag is the last write of each of the six flag instructions (R22), so no write of the result covers it. -/
theorem exec_eq_commit_setFlag {i : Instr} (s : State) (hf : setsFlag i = true) :
    ∃ next drew c u, exec i s = .next (commit next drew (setFlag c u)) := by
  cases i with
  | addReg _ _ | subReg _ _ | shr _ _ | subn _ _ | shl _ _ | drw _ _ _ => exact ⟨_, _, _, _, rfl⟩
  | _ => cases hf

theorem getV_regVF_of_setsFlag {i : Instr} {s t : State} (h : exec i s = .next t) (hf : setsFlag i = true) :
    getV t regVF = 0 ∨ getV t regVF = 1 := by
  obtain ⟨next, drew, c, u, he⟩ := exec_eq_commit_setFlag s hf
  have hc : getV t regVF = flagByte c := by
    rw [getV_of_next_commit (he.symm.trans h), getV_setFlag, if_pos rfl]
  exact hc ▸ flagByte_eq_zero_or_one c

/-- By the table of R23, VF is written only as a flag or as the named destination. -/
theorem not_writesReg_regVF {i : Instr} (s : State) (hf : setsFlag i = false) (hn : namesVF i = false) :
    ¬ writesReg s i regVF := by
  intro hw
  cases i with
  | addReg _ _ | subReg _ _ | shr _ _ | subn _ _ | shl _ _ | drw _ _ _ => cases hf
  | ldImm _ _ | addImm _ _ | ldReg _ _ | orReg _ _ | andReg _ _ | xorReg _ _ | rnd _ _ | ldVxDT _ =>
    exact beq_eq_false_iff_ne.mp hn (Eq.symm hw)
  | ldVxK _ => exact beq_eq_false_iff_ne.mp hn (Eq.symm hw.1)
  | loadRegs x => exact beq_eq_false_iff_ne.mp hn (Fin.last_le_iff.mp hw)
  | _ => exact hw

/-- Settles O45: each flag instruction writes the flag last, and every other one leaves the registers outside its row of
R23 alone, VF among them. -/
theorem flagIsWrittenOnlyByTheFlagInstructions : Obligations.FlagIsWrittenOnlyByTheFlagInstructions :=
  fun _ s _ h => ⟨getV_regVF_of_setsFlag h,
    fun hf hn => getV_exec_of_not_writesReg h (not_writesReg_regVF s hf hn)⟩

end Sys2Proof.Machine
end

section
/-! PROOFS. The fetched opcode as a number (R67): which byte holds which bits. -/

namespace Sys2Proof.Machine

/-- The first byte is bits 15..8 and the second is bits 7..0, so the second adds no carry into the first. -/
theorem wordOfBytes_toNat (hi lo : Byte) : (wordOfBytes hi lo).toNat = 256 * hi.toNat + lo.toNat := by
  calc (wordOfBytes hi lo).toNat
      = hi.toNat <<< 8 ||| lo.toNat := BitVec.toNat_append hi lo
    _ = hi.toNat <<< 8 + lo.toNat := (Nat.shiftLeft_add_eq_or_of_lt lo.isLt hi.toNat).symm
    _ = 256 * hi.toNat + lo.toNat := by rw [Nat.shiftLeft_eq, Nat.mul_comm]

/-- Settles O6: the fetch is the word of the byte at pc and the byte at the wrapped address of R68, in that order. -/
theorem fetchIsBigEndian : Obligations.FetchIsBigEndian :=
  fun s => wordOfBytes_toNat (readByte s s.pc) (readByte s (secondByteAddr s))

end Sys2Proof.Machine
end

section
/-! PROOFS. The opcode map as a partition of the words (R98): one row and its instruction, or none and the refusal. -/

namespace Sys2Proof.Machine

/-- Settles O3: where a row matches, no second one does and the decoder follows it; where none does, it refuses. -/
theorem everyWordSelectsOneRowOrIsInvalid : Obligations.EveryWordSelectsOneRowOrIsInvalid := by
  intro op
  by_cases hmatch : ∃ r ∈ opcodeTable, rowMatches op r = true
  · obtain ⟨r, hr, mr⟩ := hmatch
    exact .inl ⟨r, hr, mr, fun q hq mq => row_unique hq hr mq mr, decode_of_row hr mr⟩
  · have hnone : ∀ r ∈ opcodeTable, ¬ rowMatches op r = true := fun r hr mr => hmatch ⟨r, hr, mr⟩
    exact .inr ⟨fun r hr => Bool.eq_false_iff.mpr (hnone r hr), (decode_error_iff op _).mpr ⟨rfl, hnone⟩⟩

end Sys2Proof.Machine
end

section
/-! PROOFS. Jumps and comparing skips (R142, R144 to R148): the word of each, where it leaves PC, and the rest of the
state untouched. -/

namespace Sys2Proof.Machine

/-! ### Encodings and completed instructions, for every instruction -/

/-- An instruction whose word lies in a row that rebuilds it is encoded and decoded as that word (R95). -/
theorem encodesAs_encode {i : Instr} (hrow : Laws.EncodeRow.Statement i) (hw : i.wellFormed = true) :
    EncodesAs i (encode i) := by
  obtain ⟨r, hr, hmatch, hbuild⟩ := hrow hw
  exact ⟨rfl, (decode_of_row hr hmatch).trans (congrArg Except.ok hbuild)⟩

theorem Frame.refl (f : Footprint) (s : State) : Frame f s s where
  regs _ _ := rfl
  bytes _ _ := rfl
  index _ := rfl
  stack _ := ⟨rfl, rfl⟩
  delay _ := rfl
  sound _ := rfl
  display _ := rfl
  draws _ := rfl
  keys := rfl
  cfg := rfl
  fault := rfl

/-- The commit writes PC and the draw hint, which no frame speaks of (R126, R128). -/
theorem Frame.commit {f : Footprint} {s u : State} (h : Frame f s u) (next : Nat) (drew : Bool) :
    Frame f s (commit next drew u) where
  regs := h.regs
  bytes := h.bytes
  index := h.index
  stack := h.stack
  delay := h.delay
  sound := h.sound
  display := h.display
  draws := h.draws
  keys := h.keys
  cfg := h.cfg
  fault := h.fault

theorem completes_of_commit {i : Instr} {s u : State} {f : Footprint} {next : Nat} {drew : Bool} {post : State → Prop}
    (he : exec i s = .next (commit next drew u)) (hu : Frame f s u) (hp : post (commit next drew u)) :
    Completes i s f next drew post :=
  ⟨commit next drew u, he, ⟨rfl, rfl⟩, hu.commit next drew, hp⟩

/-- A handler that only sets `next` changes nothing but PC and the draw hint. -/
theorem completes_of_finishAt {i : Instr} {s : State} {next : Nat} {post : State → Prop}
    (he : exec i s = finishAt next s) (hp : post (commit next false s)) : Completes i s {} next false post :=
  completes_of_commit he (Frame.refl {} s) hp

/-! ### Jumps -/

/-- An address is below 4096, so the reduction at commit leaves it alone. -/
theorem a12_addr_toNat (a : Addr) : a12 a.toNat = a :=
  BitVec.eq_of_toNat_eq ((a12_toNat a.toNat).trans (Nat.mod_eq_of_lt a.isLt))

/-- Settles O13: the address NNN is already reduced, and the handler sets `next` alone. -/
theorem jumpSetsPcToTheAddress : Obligations.JumpSetsPcToTheAddress :=
  fun nnn _ => ⟨encodesAs_encode (Laws.EncodeRow.jp nnn) rfl, completes_of_finishAt rfl (a12_addr_toNat nnn)⟩

/-- Settles O14: the handler leaves the sum unreduced, and the commit is its one reduction. -/
theorem jumpWithOffsetAddsV0 : Obligations.JumpWithOffsetAddsV0 :=
  fun nnn s => ⟨encodesAs_encode (Laws.EncodeRow.jpV0 nnn) rfl,
    completes_of_finishAt rfl (a12_toNat (nnn.toNat + (getV s 0).toNat))⟩

/-! ### Skips -/

/-- The two advances of a skip count from `pc`: the default `pc + 2`, and 2 more when it is taken (R123, R140). -/
theorem skipNext_eq {c : Bool} {p : Prop} [Decidable p] (s : State) (hc : c = true ↔ p) :
    (if c then seqNext s + 2 else seqNext s) = s.pc.toNat + if p then 4 else 2 := by
  by_cases hp : p
  · rw [if_pos (hc.mpr hp), if_pos hp, seqNext]
  · rw [if_neg (mt hc.mp hp), if_neg hp, seqNext]

/-- A skip whose test decides `p` advances PC by 4 or 2 as `p` says, and changes nothing else (R140). -/
theorem completes_of_skipIf {i : Instr} {s : State} {c : Bool} {p : Prop} [Decidable p]
    (he : exec i s = skipIf c s) (hc : c = true ↔ p) :
    Completes i s {} (s.pc.toNat + if p then 4 else 2) false (fun _ => True) := by
  rw [← skipNext_eq s hc]
  exact completes_of_finishAt he trivial

/-- Settles O15: each of the four skips on a Boolean equality test, or its negation, that decides its condition. -/
theorem comparingSkipsAdvanceByFourOrTwo : Obligations.ComparingSkipsAdvanceByFourOrTwo := by
  intro x y nn s
  refine ⟨?seImm, ?sneImm, ?seReg, ?sneReg⟩
  case seImm => exact ⟨encodesAs_encode (Laws.EncodeRow.seImm x nn) rfl, completes_of_skipIf rfl beq_iff_eq⟩
  case sneImm => exact ⟨encodesAs_encode (Laws.EncodeRow.sneImm x nn) rfl, completes_of_skipIf rfl bne_iff_ne⟩
  case seReg => exact ⟨encodesAs_encode (Laws.EncodeRow.seReg x y) rfl, completes_of_skipIf rfl beq_iff_eq⟩
  case sneReg => exact ⟨encodesAs_encode (Laws.EncodeRow.sneReg x y) rfl, completes_of_skipIf rfl bne_iff_ne⟩

end Sys2Proof.Machine
end

section
/-! PROOFS. Loads, flagged arithmetic and the right shift (R161, R163, R167 to R170): the registers and VF after each, and
the rest of the state untouched. -/

namespace Sys2Proof.Machine

/-! ### Instructions that write general registers alone -/

/-- What is to prove of a state that differs in its general registers alone. -/
theorem Frame.of_registers {s : State} {v : Vector Byte 16} {p : Reg → Prop}
    (h : ∀ r, ¬ p r → getV { s with v := v } r = getV s r) : Frame { regs := p } s { s with v := v } :=
  { Frame.refl { regs := p } s with regs := h }

/-- A handler that writes general registers and leaves `next` at `pc + 2`: its row of R23 is the whole of its frame. -/
theorem completes_of_advance {i : Instr} {s u : State} {p : Reg → Prop} {post : State → Prop}
    (he : exec i s = advance u) (hu : ∃ v, u = { s with v := v }) (hw : ∀ r, writesReg s i r → p r)
    (hp : post (commit (seqNext u) false u)) : Completes i s { regs := p } (s.pc.toNat + 2) false post := by
  have hregs : ∀ r, ¬ p r → getV u r = getV s r :=
    fun r hr => getV_exec_of_not_writesReg (t := commit (seqNext u) false u) he (mt (hw r) hr)
  obtain ⟨v, rfl⟩ := hu
  exact completes_of_commit he (Frame.of_registers hregs) hp

/-- With the flag written last (R22), VF holds the flag and every other register what was written before it. -/
theorem completes_of_advance_setFlag {i : Instr} {s u : State} {c : Bool} {p : Reg → Prop} {post : State → Prop}
    (he : exec i s = advance (setFlag c u)) (hu : ∃ v, u = { s with v := v }) (hw : ∀ r, writesReg s i r → p r)
    (hp : ∀ t, (∀ r, r ≠ regVF → getV t r = getV u r) → getV t regVF = flagByte c → post t) :
    Completes i s { regs := p } (s.pc.toNat + 2) false post := by
  have hu' : ∃ v, setFlag c u = { s with v := v } := by
    obtain ⟨v, rfl⟩ := hu
    exact ⟨_, rfl⟩
  exact completes_of_advance he hu' hw
    (hp _ (fun _ hr => getV_setFlag_of_ne hr) ((getV_setFlag u c regVF).trans (if_pos rfl)))

/-! ### Loads -/

@[simp] theorem getV_setV_same (s : State) (x : Reg) (b : Byte) : getV (setV s x b) x = b := by
  rw [getV_setV, if_pos rfl]

/-- Settles O22: each load is one register write, of the byte or of the register read before it. -/
theorem loadsWriteTheirOperand : Obligations.LoadsWriteTheirOperand := by
  intro x y nn s
  refine ⟨?ldImm, ?ldReg⟩
  case ldImm =>
    exact ⟨encodesAs_encode (Laws.EncodeRow.ldImm x nn) rfl,
      completes_of_advance rfl ⟨_, rfl⟩ (fun _ => id) (getV_setV_same s x nn)⟩
  case ldReg =>
    exact ⟨encodesAs_encode (Laws.EncodeRow.ldReg x y) rfl,
      completes_of_advance rfl ⟨_, rfl⟩ (fun _ => id) (getV_setV_same s x (getV s y))⟩

/-! ### Addition and subtraction -/

theorem flagByte_decide (p : Prop) [Decidable p] : flagByte (decide p) = if p then 1 else 0 := by
  simp [flagByte]

/-- A result in V[X] and then a flag in VF: where X = F the flag is what stays. -/
theorem completes_of_setFlag_setV {i : Instr} {s : State} {x : Reg} {b : Byte} {c : Bool} {post : State → Prop}
    (he : exec i s = advance (setFlag c (setV s x b))) (hw : ∀ r, writesReg s i r → r = x ∨ r = regVF)
    (hp : ∀ t, (x ≠ regVF → getV t x = b) → getV t regVF = flagByte c → post t) :
    Completes i s { regs := fun r => r = x ∨ r = regVF } (s.pc.toNat + 2) false post :=
  completes_of_advance_setFlag he ⟨_, rfl⟩ hw
    fun t hreg hflag => hp t (fun hx => (hreg x hx).trans (getV_setV_same s x b)) hflag

/-- Settles O25: the carry is the test of the unreduced sum, whose reduction is written before it. -/
theorem addRegistersSetsCarry : Obligations.AddRegistersSetsCarry := by
  intro x y s
  refine ⟨encodesAs_encode (Laws.EncodeRow.addReg x y) rfl,
    completes_of_setFlag_setV rfl (fun _ => id) fun t hx hflag => ⟨fun hne => ?sum, ?carry⟩⟩
  case sum => rw [hx hne, addWrap_toNat]
  case carry => rw [hflag, addCarry, flagByte_decide]

/-- The 256 that `subWrap` adds keeps the natural difference exact and falls out modulo 256. -/
theorem subWrap_toInt (a b : Byte) : ((subWrap a b).toNat : Int) = (a.toNat - b.toNat : Int) % 256 := by
  have hb := b.isLt
  rw [subWrap_toNat]
  omega

/-- The two subtractions differ in the order of their operands alone (R168, R170). -/
theorem completes_of_subtraction {i : Instr} {s : State} {x : Reg} {a b : Byte}
    (he : exec i s = advance (setFlag (notBorrow a b) (setV s x (subWrap a b))))
    (hw : ∀ r, writesReg s i r → r = x ∨ r = regVF) :
    Completes i s { regs := fun r => r = x ∨ r = regVF } (s.pc.toNat + 2) false (fun t =>
      (x ≠ regVF → ((getV t x).toNat : Int) = (a.toNat - b.toNat : Int) % 256) ∧
      getV t regVF = if a.toNat ≥ b.toNat then 1 else 0) := by
  refine completes_of_setFlag_setV he hw fun t hx hflag => ⟨fun hne => ?difference, ?notBorrow⟩
  case difference => rw [hx hne, subWrap_toInt]
  case notBorrow => rw [hflag, notBorrow, flagByte_decide]

/-- Settles O26: 8XY5 subtracts V[Y] from V[X] and 8XY7 V[X] from V[Y]. -/
theorem subtractionsSetNotBorrow : Obligations.SubtractionsSetNotBorrow :=
  fun x y _ =>
    ⟨⟨encodesAs_encode (Laws.EncodeRow.subReg x y) rfl, completes_of_subtraction rfl fun _ => id⟩,
      ⟨encodesAs_encode (Laws.EncodeRow.subn x y) rfl, completes_of_subtraction rfl fun _ => id⟩⟩

/-! ### Shifts -/

theorem writesReg_shr_legacy {s : State} {x y r : Reg} (h : s.cfg.shiftProfile = .legacy) :
    writesReg s (.shr x y) r ↔ r = y ∨ r = x ∨ r = regVF := by
  simp only [writesReg, h]

theorem writesReg_shr_modern {s : State} {x y r : Reg} (h : s.cfg.shiftProfile = .modern) :
    writesReg s (.shr x y) r ↔ r = x ∨ r = regVF := by
  simp only [writesReg, h]

/-- A shift under legacy: the result in V[Y] and V[X], then the flag (R169, R171). -/
theorem completes_of_shift_legacy {i : Instr} {s : State} {x y : Reg} {b : Byte} {c : Bool} {post : State → Prop}
    (h : s.cfg.shiftProfile = .legacy) (he : exec i s = advance (setFlag c (shiftWrite s x y b)))
    (hw : ∀ r, writesReg s i r → writesReg s (.shr x y) r)
    (hp : ∀ t, (∀ r, r = x ∨ r = y → r ≠ regVF → getV t r = b) → getV t regVF = flagByte c → post t) :
    Completes i s { regs := fun r => r = y ∨ r = x ∨ r = regVF } (s.pc.toNat + 2) false post := by
  refine completes_of_advance_setFlag he ⟨_, rfl⟩ (fun r hr => (writesReg_shr_legacy h).mp (hw r hr))
    fun t hreg hflag => hp t (fun r hr hne => ?_) hflag
  rw [hreg r hne, getV_shiftWrite_legacy s x y r b h, if_pos hr]

/-- A shift under modern: the result in V[X] alone, then the flag (R169, R171). -/
theorem completes_of_shift_modern {i : Instr} {s : State} {x y : Reg} {b : Byte} {c : Bool} {post : State → Prop}
    (h : s.cfg.shiftProfile = .modern) (he : exec i s = advance (setFlag c (shiftWrite s x y b)))
    (hw : ∀ r, writesReg s i r → writesReg s (.shr x y) r)
    (hp : ∀ t, (x ≠ regVF → getV t x = b) → getV t regVF = flagByte c → post t) :
    Completes i s { regs := fun r => r = x ∨ r = regVF } (s.pc.toNat + 2) false post := by
  refine completes_of_advance_setFlag he ⟨_, rfl⟩ (fun r hr => (writesReg_shr_modern h).mp (hw r hr))
    fun t hreg hflag => hp t (fun hne => ?_) hflag
  rw [hreg x hne, getV_shiftWrite_modern s x y x b h, if_pos rfl]

/-- Settles O27: the profile picks the source and the registers written; the flag is bit 0 of that source under both. -/
theorem shiftRightFollowsTheProfile : Obligations.ShiftRightFollowsTheProfile := by
  intro x y s
  refine ⟨encodesAs_encode (Laws.EncodeRow.shr x y) rfl, fun h => ?legacy, fun h => ?modern⟩
  case legacy =>
    refine completes_of_shift_legacy h rfl (fun _ => id) fun t hreg hflag => ?_
    rw [shiftSource_legacy s x y h] at hreg hflag
    have hhalf : ∀ r, r = x ∨ r = y → r ≠ regVF → (getV t r).toNat = (getV s y).toNat / 2 :=
      fun r hr hne => by rw [hreg r hr hne, shiftedRight_toNat]
    exact ⟨hhalf x (.inl rfl), hhalf y (.inr rfl), hflag⟩
  case modern =>
    refine completes_of_shift_modern h rfl (fun _ => id) fun t hx hflag => ?_
    rw [shiftSource_modern s x y h] at hx hflag
    exact ⟨fun hne => by rw [hx hne, shiftedRight_toNat], hflag⟩

end Sys2Proof.Machine
end

section
/-! PROOFS. The index register and the block transfers (R190, R192 to R195): I, bytes and registers after each, and the
rest of the state untouched. -/

namespace Sys2Proof.Machine

/-! ### A write inside the footprint keeps the frame -/

theorem Frame.setI {f : Footprint} {s u : State} (h : Frame f s u) {w : BitVec 16} (hw : f.index = false → w = s.i) :
    Frame f s (setI u w) :=
  { h with index := hw }

theorem Frame.setV {f : Footprint} {s u : State} (h : Frame f s u) {x : Reg} (hx : f.regs x) (b : Byte) :
    Frame f s (setV u x b) :=
  { h with regs := fun r hr => (getV_setV_of_ne fun e : r = x => hr (e ▸ hx)).trans (h.regs r hr) }

theorem Frame.writeByte {f : Footprint} {s u : State} (h : Frame f s u) {a : Addr} (ha : f.bytes a) (b : Byte) :
    Frame f s (writeByte u a b) :=
  { h with bytes := fun q hq =>
      ((readByte_writeByte u a q b).trans (if_neg fun e : q = a => hq (e ▸ ha))).trans (h.bytes q hq) }

/-- The stores of FX55 touch the bytes at `a12(I + k)` alone (R194). -/
theorem Frame.storeBlock {f : Footprint} {s : State} {n : Nat} (h : ∀ k, k < n → f.bytes (indexAddr s k)) :
    Frame f s (storeBlock s n) := by
  induction n with
  | zero => exact Frame.refl f s
  | succ n ih => exact (ih fun k hk => h k (Nat.lt_succ_of_lt hk)).writeByte (h n n.lt_succ_self) _

/-- The loads of FX65 touch the registers V[k] alone (R195). -/
theorem Frame.loadBlock {f : Footprint} {s : State} {n : Nat} (h : ∀ k, k < n → f.regs (Fin.ofNat 16 k)) :
    Frame f s (loadBlock s n) := by
  induction n with
  | zero => exact Frame.refl f s
  | succ n ih => exact (ih fun k hk => h k (Nat.lt_succ_of_lt hk)).setV (h n n.lt_succ_self) _

theorem indexAfterBlock_legacy {x : Reg} {s : State} (h : s.cfg.memIncProfile = .legacy) :
    indexAfterBlock x s = s.i := by
  simp only [indexAfterBlock, h]

theorem indexAfterBlock_modern_toNat {x : Reg} {s : State} (h : s.cfg.memIncProfile = .modern) :
    (indexAfterBlock x s).toNat = (s.i.toNat + x.val + 1) % 4096 := by
  simp only [indexAfterBlock, h]
  exact advancedIndex_toNat s (x.val + 1)

/-- I moves under modern alone, so a footprint that holds I then and only then is kept (R194, R195). -/
theorem Frame.bumpIndex {f : Footprint} {s u : State} (h : Frame f s u)
    (hf : f.index = (s.cfg.memIncProfile == .modern)) (x : Reg) : Frame f s (bumpIndex x u) := by
  refine h.setI fun hfalse => ?_
  have hlegacy : u.cfg.memIncProfile = .legacy := by
    rw [h.cfg]
    cases hp : s.cfg.memIncProfile with
    | legacy => rfl
    | modern => simp [hf, hp] at hfalse
  rw [indexAfterBlock_legacy hlegacy, h.index hfalse]

/-- A handler that leaves PC and `next` alone completes at `pc + 2`, within the frame of what it writes. -/
theorem completes_of_advance_frame {i : Instr} {s u : State} {f : Footprint} {post : State → Prop}
    (he : exec i s = advance u) (hu : Frame f s u) (hpc : u.pc = s.pc) (hp : post (commit (seqNext u) false u)) :
    Completes i s f (s.pc.toNat + 2) false post := by
  have hnext : seqNext u = s.pc.toNat + 2 := by rw [seqNext, hpc]
  exact hnext ▸ completes_of_commit he hu hp

/-! ### The index register -/

/-- An instruction that only loads I. -/
theorem completes_of_advance_setI {i : Instr} {s : State} {w : BitVec 16} {post : State → Prop}
    (he : exec i s = advance (setI s w)) (hp : post (commit (seqNext s) false (setI s w))) :
    Completes i s { index := true } (s.pc.toNat + 2) false post :=
  completes_of_advance_frame he ((Frame.refl _ s).setI Bool.noConfusion) rfl hp

/-- Settles O30: the 12 bits of NNN fit in the 16 of I. -/
theorem loadIndexSetsTheAddress : Obligations.LoadIndexSetsTheAddress :=
  fun nnn _ => ⟨encodesAs_encode (Laws.EncodeRow.ldI nnn) rfl,
    completes_of_advance_setI rfl (BitVec.toNat_setWidth_of_le (by decide))⟩

/-- Settles O32: the product of the whole byte, at most 1275, is below the width of I. -/
theorem glyphAddressIsFiveTimesTheDigit : Obligations.GlyphAddressIsFiveTimesTheDigit :=
  fun x s => ⟨encodesAs_encode (Laws.EncodeRow.ldF x) rfl,
    completes_of_advance_setI rfl ((glyphAddr_toNat s x).trans (Nat.mul_comm _ _))⟩

/-! ### The block transfers -/

/-- Two indices of a block name one byte only where they are equal (R69). -/
theorem readByte_writeByte_indexAddr (s u : State) (b : Byte) {j k : Nat} (hj : j < 4096) (hk : k < 4096) :
    readByte (writeByte u (indexAddr s j) b) (indexAddr s k) = if k = j then b else readByte u (indexAddr s k) := by
  simp only [readByte_writeByte, indexAddr_inj s hk hj]

/-- Settles O33: the three addresses are distinct, so no digit is overwritten by a later one. -/
theorem storesTheThreeDecimalDigits : Obligations.StoresTheThreeDecimalDigits := by
  intro x s
  refine ⟨encodesAs_encode (Laws.EncodeRow.ldB x) rfl,
    completes_of_advance_frame rfl ?frame rfl ⟨?hundreds, ?tens, ?ones⟩⟩
  case frame =>
    refine Frame.writeByte (Frame.writeByte (Frame.writeByte (Frame.refl _ s) ?_ _) ?_ _) ?_ _
    · exact ⟨0, by decide, rfl⟩
    · exact ⟨1, by decide, rfl⟩
    · exact ⟨2, by decide, rfl⟩
  case hundreds => simp [readByte_writeByte_indexAddr, hundreds_toNat]
  case tens => simp [readByte_writeByte_indexAddr, tens_toNat]
  case ones => simp [readByte_writeByte_indexAddr, ones_toNat]

/-- Settles O34: the copy stays in its block and fills it, and the profile says whether I then moves. -/
theorem storeRegistersCopiesTheBlock : Obligations.StoreRegistersCopiesTheBlock := by
  intro x s
  refine ⟨encodesAs_encode (Laws.EncodeRow.storeRegs x) rfl,
    completes_of_advance_frame rfl ?frame (storeBlock_pc s _) ⟨fun k hk => ?bytes, fun hmodern => ?index⟩⟩
  case frame =>
    refine Frame.bumpIndex (Frame.storeBlock fun k hk => ?_) rfl x
    exact ⟨k, Nat.le_of_lt_succ hk, rfl⟩
  case bytes =>
    have hbyte := storeBlock_inside s (x.val + 1) k.val x.isLt (Nat.lt_succ_of_le hk)
    rwa [Fin.ofNat_val_eq_self] at hbyte
  case index =>
    rw [commit_i, bumpIndex_i, indexAfterBlock_modern_toNat (by rwa [storeBlock_cfg]), storeBlock_i]

/-- Settles O35: the copy stays in V0..VX and fills it, and the profile says whether I then moves. -/
theorem loadRegistersCopiesTheBlock : Obligations.LoadRegistersCopiesTheBlock := by
  intro x s
  refine ⟨encodesAs_encode (Laws.EncodeRow.loadRegs x) rfl,
    completes_of_advance_frame rfl ?frame (loadBlock_pc s _) ⟨fun k hk => ?regs, fun hmodern => ?index⟩⟩
  case frame =>
    refine Frame.bumpIndex (Frame.loadBlock fun k hk => ?_) rfl x
    exact Nat.le_of_lt_succ ((Nat.mod_le k 16).trans_lt hk)
  case regs => exact (getV_loadBlock s (x.val + 1) k x.isLt).trans (if_pos (Nat.lt_succ_of_le hk))
  case index =>
    rw [commit_i, bumpIndex_i, indexAfterBlock_modern_toNat (by rwa [loadBlock_cfg]), loadBlock_i]

end Sys2Proof.Machine
end

section
/-! PROOFS. Drawing a sprite (R211, R212): the loop's rows and flag read pixel by pixel, and the rest of the state
untouched. -/

namespace Sys2Proof.Machine

/-! ### Rows and columns of the frame (R40) -/

theorem pixel_eq_rowAt (d : Vector RowBits 32) (r : Fin 32) (c : Fin 64) :
    pixel d r c = (rowAt d r.val).getLsbD (63 - c.val) := by
  rw [pixel, rowAt_fin]

/-- Counting from the left names each bit of a row once. -/
theorem exists_column_iff (w : RowBits) : (∃ c : Fin 64, w.getLsbD (63 - c.val) = true) ↔ w ≠ 0 := by
  constructor
  · rintro ⟨c, hc⟩ rfl
    simp at hc
  · intro hne
    by_contra hnone
    refine hne (BitVec.eq_of_getLsbD_eq fun j hj => ?_)
    have hclear : ¬ w.getLsbD (63 - (63 - j)) = true := fun h => hnone ⟨⟨63 - j, by omega⟩, h⟩
    simpa [show 63 - (63 - j) = j by omega] using hclear

theorem rowCollides_iff_exists_column (row m : RowBits) :
    rowCollides row m = true ↔
      ∃ c : Fin 64, m.getLsbD (63 - c.val) = true ∧ row.getLsbD (63 - c.val) = true := by
  rw [rowCollides, bne_iff_ne, ← exists_column_iff]
  simp only [BitVec.getLsbD_and, Bool.and_eq_true, and_comm]

/-! ### The clipped sprite (R211) -/

/-- The clipped height keeps the loop inside the frame. -/
theorem anchorRow_add_drawnHeight_le (s : State) (y : Reg) (n : Nat) :
    anchorRow s y + drawnHeight n (anchorRow s y) ≤ 32 := by
  have hrow : anchorRow s y < 32 := Nat.mod_lt _ (by decide)
  have hheight : drawnHeight n (anchorRow s y) ≤ 32 - anchorRow s y := Nat.min_le_right _ _
  omega

/-- Inside the frame the clipped height cuts no row off. -/
theorem lt_add_drawnHeight_iff {n y0 r : Nat} (hr : r < 32) : r < y0 + drawnHeight n y0 ↔ r < y0 + n := by
  rw [drawnHeight]
  omega

/-- The sprite's pixels in the frame are those of the rows the loop draws. -/
theorem spritePixel_eq_spriteRow (s : State) (x y : Reg) (n : Nat) (r : Fin 32) (c : Fin 64) :
    spritePixel s x y n r c =
      (decide (anchorRow s y ≤ r.val ∧ r.val < anchorRow s y + drawnHeight n (anchorRow s y)) &&
        (spriteRow s (anchorColumn s x) (r.val - anchorRow s y)).getLsbD (63 - c.val)) := by
  simp only [spritePixel, spriteRow, spriteMask_column _ _ _ c.isLt, lt_add_drawnHeight_iff r.isLt, anchorRow,
    anchorColumn, Bool.decide_and, Bool.and_assoc]

/-! ### What the loop draws (R212) -/

theorem pixel_drawSprite (s : State) (x y : Reg) (n : Nat) (r : Fin 32) (c : Fin 64) :
    pixel (drawSprite x y n s).1 r c = (pixel s.display r c ^^ spritePixel s x y n r c) := by
  rw [spritePixel_eq_spriteRow, pixel_eq_rowAt, pixel_eq_rowAt, drawSprite,
    drawRows_row s _ _ _ (anchorRow_add_drawnHeight_le s y n)]
  by_cases hin : anchorRow s y ≤ r.val ∧ r.val < anchorRow s y + drawnHeight n (anchorRow s y)
  · rw [if_pos hin, decide_eq_true hin, BitVec.getLsbD_xor, Bool.true_and]
  · rw [if_neg hin, decide_eq_false hin, Bool.false_and, Bool.xor_false]

/-- The collision flag is set exactly where a pixel of the sprite meets a set pixel. -/
theorem drawSprite_collides_iff (s : State) (x y : Reg) (n : Nat) :
    (drawSprite x y n s).2 = true ↔ ∃ r c, spritePixel s x y n r c = true ∧ pixel s.display r c = true := by
  have hle := anchorRow_add_drawnHeight_le s y n
  rw [drawSprite, drawRows_collides s _ _ _ hle]
  simp only [rowCollides_iff_exists_column, spritePixel_eq_spriteRow, pixel_eq_rowAt, Bool.and_eq_true,
    decide_eq_true_eq]
  constructor
  · rintro ⟨k, hk, c, hsprite, hset⟩
    refine ⟨⟨anchorRow s y + k, by omega⟩, c, ⟨⟨Nat.le_add_right _ _, Nat.add_lt_add_left hk _⟩, ?_⟩, hset⟩
    rwa [Nat.add_sub_cancel_left]
  · rintro ⟨r, c, ⟨⟨hge, hlt⟩, hsprite⟩, hset⟩
    refine ⟨r.val - anchorRow s y, by omega, c, hsprite, ?_⟩
    rwa [Nat.add_sub_cancel' hge]

/-! ### DXYN -/

theorem Frame.setFlag {f : Footprint} {s u : State} (h : Frame f s u) (hf : f.regs regVF) (c : Bool) :
    Frame f s (setFlag c u) :=
  h.setV hf (flagByte c)

theorem Frame.setDisplay {f : Footprint} {s u : State} (h : Frame f s u) (hf : f.display = true)
    (d : Vector RowBits 32) : Frame f s { u with display := d } :=
  { h with display := fun hfalse => Bool.noConfusion (hf.symm.trans hfalse) }

theorem getV_regVF_setFlag (c : Bool) (s : State) : getV (setFlag c s) regVF = flagByte c := by
  rw [getV_setFlag, if_pos rfl]

/-- Settles O38: the loop inverts the sprite's pixels, and its flag, written to VF last, tells whether one was set. -/
theorem drawInvertsTheClippedSpritePixels : Obligations.DrawInvertsTheClippedSpritePixels := by
  intro x y n s
  refine ⟨fun hn => ?encoding, completes_of_commit rfl ?frame ⟨fun r c => ?pixels, fun hmeets => ?collision,
    fun hclear => ?noCollision⟩⟩
  case encoding =>
    have hw : (Instr.drw x y n).wellFormed = true := decide_eq_true hn
    exact encodesAs_encode (Laws.EncodeRow.drw x y n) hw
  case frame => exact ((Frame.refl _ s).setDisplay rfl _).setFlag rfl _
  case pixels => exact pixel_drawSprite s x y n r c
  case collision =>
    have hflag : (drawSprite x y n s).2 = true := (drawSprite_collides_iff s x y n).mpr hmeets
    rw [getV_commit, getV_regVF_setFlag, hflag]
    rfl
  case noCollision =>
    have hflag : (drawSprite x y n s).2 = false := by
      refine Bool.eq_false_iff.mpr fun hcollides => ?_
      obtain ⟨r, c, hsprite, hset⟩ := (drawSprite_collides_iff s x y n).mp hcollides
      exact Bool.false_ne_true ((hclear r c hsprite).symm.trans hset)
    rw [getV_commit, getV_regVF_setFlag, hflag]
    rfl

end Sys2Proof.Machine
end

section
/-! PROOFS. Keys and timers (R230 to R236): the key skips, the key wait and the timer transfers, and the rest of the state
untouched. -/

namespace Sys2Proof.Machine

/-! ### Key skips -/

/-- The key a skip tests is V[X] mod 16 (R230). -/
theorem held_keyOperand {s : State} {x : Reg} {k : Key} (hk : (getV s x).toNat % 16 = k.val) :
    held s (keyOperand s x) = s.keys[k] := by
  have hkey : keyOperand s x = k := Fin.ext hk
  rw [hkey, held]

/-- Settles O16: the two skips on the state of the one key, and on its negation. -/
theorem keySkipsTestTheLowNibbleKey : Obligations.KeySkipsTestTheLowNibbleKey := by
  intro x k s hk
  refine ⟨⟨encodesAs_encode (Laws.EncodeRow.skp x) rfl, completes_of_skipIf rfl ?skp⟩,
    ⟨encodesAs_encode (Laws.EncodeRow.sknp x) rfl, completes_of_skipIf rfl ?sknp⟩⟩
  case skp => rw [held_keyOperand hk]
  case sknp => rw [held_keyOperand hk, Bool.not_eq_true']

/-! ### The key wait -/

theorem execLdVxK_of_lowestHeld {s : State} {k : Key} (x : Reg) (h : lowestHeld s = some k) :
    execLdVxK x s = advance (setV s x (BitVec.ofNat 8 k.val)) := by
  simp only [execLdVxK, h]

/-- With no key held the poll takes back the default advance, so `next` is PC itself (R233). -/
theorem execLdVxK_of_none_held {s : State} (x : Reg) (h : lowestHeld s = none) :
    execLdVxK x s = finishAt s.pc.toNat s := by
  simp only [execLdVxK, h, seqNext, Nat.add_sub_cancel]

theorem keyByte_toNat (k : Key) : (BitVec.ofNat 8 k.val).toNat = k.val :=
  (BitVec.toNat_ofNat k.val 8).trans (Nat.mod_eq_of_lt (k.isLt.trans (by decide)))

/-- Settles O40: the scan finds the lowest held key and writes its number, or finds none and leaves `next` at PC. -/
theorem keyWaitTakesTheLowestHeldKeyOrPolls : Obligations.KeyWaitTakesTheLowestHeldKeyOrPolls := by
  intro x s
  refine ⟨encodesAs_encode (Laws.EncodeRow.ldVxK x) rfl, fun k hk hlower => ?taken, fun hnone => ?polls⟩
  case taken =>
    have hlowest : lowestHeld s = some k := (lowestHeld_some s k).mpr ⟨hk, hlower⟩
    refine completes_of_advance (execLdVxK_of_lowestHeld x hlowest) ⟨_, rfl⟩ (fun _ => And.left) ?_
    rw [getV_commit, getV_setV_same, keyByte_toNat]
  case polls =>
    have hlowest : lowestHeld s = none := (lowestHeld_none s).mpr hnone
    exact completes_of_finishAt (execLdVxK_of_none_held x hlowest) (a12_addr_toNat s.pc)

/-! ### Timer transfers -/

theorem Frame.setDT {f : Footprint} {s u : State} (h : Frame f s u) (hf : f.delay = true) (b : Byte) :
    Frame f s (setDT u b) :=
  { h with delay := fun hfalse => Bool.noConfusion (hf.symm.trans hfalse) }

theorem Frame.setST {f : Footprint} {s u : State} (h : Frame f s u) (hf : f.sound = true) (b : Byte) :
    Frame f s (setST u b) :=
  { h with sound := fun hfalse => Bool.noConfusion (hf.symm.trans hfalse) }

/-- `sound_active` is the test that ST is not 0 (R236, R264). -/
theorem soundActive_iff (s : State) : soundActive s = true ↔ s.st ≠ 0 :=
  bne_iff_ne

/-- Settles O41: FX07 is one register write, FX15 and FX18 one timer write each, and sound_active reads the ST written. -/
theorem timerTransfersCopyTheRegister : Obligations.TimerTransfersCopyTheRegister := by
  intro x s
  refine ⟨⟨encodesAs_encode (Laws.EncodeRow.ldVxDT x) rfl, ?ldVxDT⟩,
    ⟨encodesAs_encode (Laws.EncodeRow.ldDTVx x) rfl, ?ldDTVx⟩,
    ⟨encodesAs_encode (Laws.EncodeRow.ldSTVx x) rfl, ?ldSTVx⟩⟩
  case ldVxDT => exact completes_of_advance rfl ⟨_, rfl⟩ (fun _ => id) (getV_setV_same s x s.dt)
  case ldDTVx => exact completes_of_advance_frame rfl ((Frame.refl _ s).setDT rfl _) rfl rfl
  case ldSTVx =>
    exact completes_of_advance_frame rfl ((Frame.refl _ s).setST rfl _) rfl ⟨rfl, soundActive_iff _⟩

end Sys2Proof.Machine
end

section
/-! PROOFS. Timer advances in a row (R262): each one ticks both timers and nothing else, and n ticks take n, stopping at
zero. -/

namespace Sys2Proof.Machine

/-! ### Ticks of one timer -/

/-- The floor at zero is that of the subtraction of Nat (R262). -/
@[simp] theorem timerTick_toNat (b : Byte) : (timerTick b).toNat = b.toNat - 1 := by
  have hlt : b.toNat < 256 := b.isLt
  unfold timerTick
  split
  case isTrue hpos => rw [u8_toNat, Nat.mod_eq_of_lt (by omega)]
  case isFalse hzero => omega

theorem timerTick_iterate_toNat (n : Nat) (b : Byte) : (timerTick^[n] b).toNat = b.toNat - n := by
  induction n with
  | zero => rfl
  | succ n ih => rw [Function.iterate_succ_apply', timerTick_toNat, ih, Nat.sub_sub]

/-! ### Advances in a row -/

theorem runSchedule_replicate_advanceTimers (n : Nat) (s : State) :
    runSchedule (List.replicate n .advanceTimers) s =
      { s with dt := timerTick^[n] s.dt, st := timerTick^[n] s.st } := by
  induction n generalizing s with
  | zero => rfl
  | succ n ih => exact ih (advanceTimers s)

/-- Settles O42: n advances are n ticks of each timer, by induction on n, and no write outside them. -/
theorem advancesCountBothTimersDownToZero : Obligations.AdvancesCountBothTimersDownToZero := by
  intro n s
  rw [runSchedule_replicate_advanceTimers]
  exact ⟨timerTick_iterate_toNat n s.dt, timerTick_iterate_toNat n s.st, rfl⟩

end Sys2Proof.Machine
end

section
/-! PROOFS. Construction (R288): which arguments leave no machine behind. -/

namespace Sys2Proof.Machine

/-- Settles O54: the missing image is refused before the configuration is looked at, so no case split on it is needed. -/
theorem missingImageGivesNoMachine : Obligations.MissingImageGivesNoMachine :=
  fun _ => rfl

end Sys2Proof.Machine
end

section
/-! PROOFS. The round trips of the encoding (R95, R96): every row of the opcode map, read from the instruction and
from the word. -/

namespace Sys2Proof.Machine

/-! ### From the instruction to its word and back -/

/-- Each instruction's word lies in its row of R96, and the row's fields give the instruction back. -/
theorem encodeRow_statement (i : Instr) : Laws.EncodeRow.Statement i := by
  cases i with
  | cls => exact Laws.EncodeRow.cls
  | ret => exact Laws.EncodeRow.ret
  | jp nnn => exact Laws.EncodeRow.jp nnn
  | call nnn => exact Laws.EncodeRow.call nnn
  | seImm x nn => exact Laws.EncodeRow.seImm x nn
  | sneImm x nn => exact Laws.EncodeRow.sneImm x nn
  | seReg x y => exact Laws.EncodeRow.seReg x y
  | ldImm x nn => exact Laws.EncodeRow.ldImm x nn
  | addImm x nn => exact Laws.EncodeRow.addImm x nn
  | ldReg x y => exact Laws.EncodeRow.ldReg x y
  | orReg x y => exact Laws.EncodeRow.orReg x y
  | andReg x y => exact Laws.EncodeRow.andReg x y
  | xorReg x y => exact Laws.EncodeRow.xorReg x y
  | addReg x y => exact Laws.EncodeRow.addReg x y
  | subReg x y => exact Laws.EncodeRow.subReg x y
  | shr x y => exact Laws.EncodeRow.shr x y
  | subn x y => exact Laws.EncodeRow.subn x y
  | shl x y => exact Laws.EncodeRow.shl x y
  | sneReg x y => exact Laws.EncodeRow.sneReg x y
  | ldI nnn => exact Laws.EncodeRow.ldI nnn
  | jpV0 nnn => exact Laws.EncodeRow.jpV0 nnn
  | rnd x nn => exact Laws.EncodeRow.rnd x nn
  | drw x y n => exact Laws.EncodeRow.drw x y n
  | skp x => exact Laws.EncodeRow.skp x
  | sknp x => exact Laws.EncodeRow.sknp x
  | ldVxDT x => exact Laws.EncodeRow.ldVxDT x
  | ldVxK x => exact Laws.EncodeRow.ldVxK x
  | ldDTVx x => exact Laws.EncodeRow.ldDTVx x
  | ldSTVx x => exact Laws.EncodeRow.ldSTVx x
  | addI x => exact Laws.EncodeRow.addI x
  | ldF x => exact Laws.EncodeRow.ldF x
  | ldB x => exact Laws.EncodeRow.ldB x
  | storeRegs x => exact Laws.EncodeRow.storeRegs x
  | loadRegs x => exact Laws.EncodeRow.loadRegs x

/-- Settles O1: the word lies in the instruction's own row, which is the one row the decoder follows. -/
theorem decodeOfEncodeGivesTheInstruction : Obligations.DecodeOfEncodeGivesTheInstruction := by
  intro i hw
  obtain ⟨-, hdecode⟩ := encodesAs_encode (encodeRow_statement i) hw
  exact hdecode

/-! ### From the word to its instruction and back -/

/-- A field's bits, put back where they were read. -/
theorem ofNat_extract_shiftLeft (op : Opcode) (k n : Nat) :
    BitVec.ofNat 16 (op.extractLsb' k n).toNat <<< k = op &&& ((BitVec.allOnes n).setWidth 16 <<< k) := by
  rw [BitVec.ofNat_toNat]
  ext j hj
  simp only [BitVec.getElem_shiftLeft, BitVec.getElem_and, BitVec.getElem_setWidth, BitVec.getLsbD_extractLsb',
    BitVec.getLsbD_allOnes]
  by_cases hk : j < k
  · simp [hk]
  · simp [hk, show k + (j - k) = j by omega, BitVec.getLsbD_eq_getElem hj, Bool.and_comm]

theorem putX_opX (op : Opcode) : putX (opX op) = op &&& 0x0F00#16 :=
  ofNat_extract_shiftLeft op 8 4

theorem putY_opY (op : Opcode) : putY (opY op) = op &&& 0x00F0#16 :=
  ofNat_extract_shiftLeft op 4 4

theorem putN_opN (op : Opcode) : putN (opN op) = op &&& 0x000F#16 := by
  rw [putN, opN, BitVec.ofNat_toNat, BitVec.setWidth_eq, ← BitVec.ofNat_toNat]
  simpa using ofNat_extract_shiftLeft op 0 4

theorem putNN_opNN (op : Opcode) : putNN (opNN op) = op &&& 0x00FF#16 := by
  rw [putNN, opNN, ← BitVec.ofNat_toNat]
  simpa using ofNat_extract_shiftLeft op 0 8

theorem putNNN_opNNN (op : Opcode) : putNNN (opNNN op) = op &&& 0x0FFF#16 := by
  rw [putNNN, opNNN, ← BitVec.ofNat_toNat]
  simpa using ofNat_extract_shiftLeft op 0 12

theorem opN_lt (op : Opcode) : opN op < 16 :=
  (op.extractLsb' 0 4).isLt

/-- Each row rebuilds its word: the fixed bits, and the bits outside the mask as they stand in the word. -/
theorem encode_build {r : OpcodeRow} (hr : r ∈ opcodeTable) (op : Opcode) :
    encode (r.build op) = r.fixed ||| (op &&& ~~~r.mask) := by
  revert r
  simp [opcodeTable, opcodeRows0to8, opcodeRows9toF, encode, putX_opX, putY_opY, putN_opN, putNN_opNN, putNNN_opNNN,
    BitVec.or_assoc, ← BitVec.and_or_distrib_left]

theorem wellFormed_build {r : OpcodeRow} (hr : r ∈ opcodeTable) (op : Opcode) : (r.build op).wellFormed = true := by
  revert r
  simp [opcodeTable, opcodeRows0to8, opcodeRows9toF, Instr.wellFormed, heightFits, opN_lt]

/-- Settles O2: the word's row holds its fixed bits, and the row's build keeps the others. -/
theorem encodeOfDecodeGivesTheWord : Obligations.EncodeOfDecodeGivesTheWord := by
  intro op i h
  obtain ⟨r, hr, hmatch, rfl⟩ := (decode_ok_iff op i).mp h
  refine ⟨?_, wellFormed_build hr op⟩
  calc encode (r.build op)
      = r.fixed ||| (op &&& ~~~r.mask) := encode_build hr op
    _ = (op &&& r.mask) ||| (op &&& ~~~r.mask) := by rw [(rowMatches_iff op r).mp hmatch]
    _ = op &&& (r.mask ||| ~~~r.mask) := BitVec.and_or_distrib_left.symm
    _ = op := by rw [BitVec.or_not_self, BitVec.and_allOnes]

/-! ### The words that no row matches -/

/-- op[15:12] is the quotient by 4096. -/
theorem and_F000_toNat (op : Opcode) : (op &&& 0xF000#16).toNat = op.toNat / 4096 * 4096 := by
  have hlt : op.toNat < 65536 := op.isLt
  calc (op &&& 0xF000#16).toNat
      = (BitVec.ofNat 16 (op.extractLsb' 12 4).toNat <<< 12).toNat :=
        congrArg BitVec.toNat (ofNat_extract_shiftLeft op 12 4).symm
    _ = op.toNat / 4096 * 4096 := by
      simp only [BitVec.toNat_shiftLeft, BitVec.toNat_ofNat, BitVec.extractLsb'_toNat, Nat.shiftLeft_eq,
        Nat.shiftRight_eq_div_pow]
      omega

theorem and_000F_toNat (op : Opcode) : (op &&& 0x000F#16).toNat = op.toNat % 16 :=
  (BitVec.toNat_and op 0x000F#16).trans (Nat.and_two_pow_sub_one_eq_mod op.toNat 4)

theorem and_00FF_toNat (op : Opcode) : (op &&& 0x00FF#16).toNat = op.toNat % 256 :=
  (BitVec.toNat_and op 0x00FF#16).trans (Nat.and_two_pow_sub_one_eq_mod op.toNat 8)

/-- A test under two masks together is a test under each. -/
theorem and_or_eq_iff {op a b c : Opcode} (ha : (a ||| b) &&& a = a) (hb : (a ||| b) &&& b = b)
    (hc : c &&& (a ||| b) = c) : op &&& (a ||| b) = c ↔ op &&& a = c &&& a ∧ op &&& b = c &&& b := by
  constructor
  · rintro rfl
    rw [BitVec.and_assoc, BitVec.and_assoc, ha, hb]
    exact ⟨rfl, rfl⟩
  · rintro ⟨hopa, hopb⟩
    rw [BitVec.and_or_distrib_left, hopa, hopb, ← BitVec.and_or_distrib_left, hc]

theorem and_F000_eq_and_iff (op c : Opcode) :
    op &&& 0xF000#16 = c &&& 0xF000#16 ↔ op.toNat / 4096 = c.toNat / 4096 := by
  rw [← BitVec.toNat_inj, and_F000_toNat, and_F000_toNat]
  omega

/-- The mask F000 tests the group, op[15:12]. -/
theorem and_F000_eq_iff {op c : Opcode} (hc : c &&& 0xF000#16 = c) :
    op &&& 0xF000#16 = c ↔ op.toNat / 4096 = c.toNat / 4096 := by
  rw [← and_F000_eq_and_iff, hc]

/-- The mask F00F tests the group and op[3:0]. -/
theorem and_F00F_eq_iff {op c : Opcode} (hc : c &&& 0xF00F#16 = c) :
    op &&& 0xF00F#16 = c ↔ op.toNat / 4096 = c.toNat / 4096 ∧ op.toNat % 16 = c.toNat % 16 := by
  rw [← and_F000_eq_and_iff, ← and_000F_toNat op, ← and_000F_toNat c, BitVec.toNat_inj]
  exact and_or_eq_iff (a := 0xF000#16) (b := 0x000F#16) (by decide) (by decide) hc

/-- The mask F0FF tests the group and op[7:0]. -/
theorem and_F0FF_eq_iff {op c : Opcode} (hc : c &&& 0xF0FF#16 = c) :
    op &&& 0xF0FF#16 = c ↔ op.toNat / 4096 = c.toNat / 4096 ∧ op.toNat % 256 = c.toNat % 256 := by
  rw [← and_F000_eq_and_iff, ← and_00FF_toNat op, ← and_00FF_toNat c, BitVec.toNat_inj]
  exact and_or_eq_iff (a := 0xF000#16) (b := 0x00FF#16) (by decide) (by decide) hc

theorem and_FFFF_eq (op : Opcode) : op &&& 0xFFFF#16 = op :=
  BitVec.and_allOnes

/-- Settles O4: within each of the 16 groups the rows leave out exactly the words that the table lists; the two rows
that fix the whole word stand in group 0. -/
theorem invalidWordsAreThoseOfTheGroupTable : Obligations.InvalidWordsAreThoseOfTheGroupTable := by
  intro op
  have hgroup : op.toNat / 4096 < 16 := Nat.div_lt_of_lt_mul op.isLt
  have hcls : op.toNat / 4096 ≠ 0 → op ≠ 0x00E0#16 := by rintro hne rfl; exact hne rfl
  have hret : op.toNat / 4096 ≠ 0 → op ≠ 0x00EE#16 := by rintro hne rfl; exact hne rfl
  rw [decode_error_iff, invalidByGroup]
  simp only [opcodeTable, opcodeRows0to8, opcodeRows9toF, List.mem_append, List.mem_cons, List.not_mem_nil, or_false,
    or_imp, forall_and, forall_eq, true_and, rowMatches_iff, BitVec.ofNat_eq_ofNat, and_FFFF_eq, and_F000_eq_iff,
    and_F00F_eq_iff, and_F0FF_eq_iff, BitVec.reduceAnd, BitVec.reduceToNat, Nat.reduceDiv, Nat.reduceMod]
  generalize op.toNat / 4096 = group at *
  interval_cases group <;> simp [hcls, hret]

/-! ### Words of the vectors -/

/-- Settles O5: each word runs through the map and its fields, as in the tests of the decoder. -/
theorem sampleWordsDecodeToTheirInstructions : Obligations.SampleWordsDecodeToTheirInstructions :=
  ⟨rfl, rfl, rfl, rfl, rfl, rfl, rfl, rfl⟩

end Sys2Proof.Machine
end

section
/-! PROOFS. What an instruction can do (R125 to R129), said once: it completes inside its footprint, or it is one of
the two stack faults. The rules of the step and of the units that follow from it. -/

namespace Sys2Proof.Machine

/-! ### The footprint of an instruction -/

/-- FX15, the instruction that writes DT (R34). -/
def writesDelay : Instr → Bool
  | .ldDTVx _ => true
  | _ => false

/-- FX18, the instruction that writes ST (R35). -/
def writesSound : Instr → Bool
  | .ldSTVx _ => true
  | _ => false

/-- CXNN, the instruction that makes a free draw (R172). -/
def makesDraw : Instr → Bool
  | .rnd _ _ => true
  | _ => false

/-- What an instruction may change from state `s`, each unit by the spec's list of its writers (10_state.md). -/
def footprint (s : State) (i : Instr) : Footprint where
  regs := writesReg s i
  bytes := writesByte s i
  index := writesIndex s.cfg i
  stack := accessesStack i
  delay := writesDelay i
  sound := writesSound i
  display := writesDisplay i
  draws := makesDraw i

/-- The draw hint that an instruction leaves when it completes (R128). -/
def drawHint (c : Config) : Instr → Bool
  | .drw _ _ _ => true
  | .cls => c.clsSetsDrawn
  | _ => false

theorem drawHint_iff (c : Config) (i : Instr) :
    drawHint c i = true ↔ (∃ x y n, i = .drw x y n) ∨ i = .cls ∧ c.clsSetsDrawn = true := by
  cases i <;> simp [drawHint]

/-- The fault that an instruction takes, where it takes one (R253, R254). -/
def TakesStackFault (i : Instr) (s : State) (r : FaultRecord) : Prop :=
  s.cfg.stackPolicy = .bounded ∧
    ((∃ nnn, i = .call nnn) ∧ s.sp = 8 ∧ r = .stackOverflow s.pc ∨ i = .ret ∧ s.sp = 0 ∧ r = .stackUnderflow s.pc)

/-- The instruction completes: one commit, over a state that differs from `s` inside the footprint alone. -/
def Commits (i : Instr) (s : State) : Prop :=
  ∃ next u, exec i s = .next (commit next (drawHint s.cfg i) u) ∧ Frame (footprint s i) s u

/-! ### Stack operations inside a frame -/

theorem Frame.pushed {f : Footprint} {s u : State} (h : Frame f s u) (hf : f.stack = true) (a : BitVec 16) :
    Frame f s (pushed u a) :=
  { h with stack := fun hfalse => Bool.noConfusion (hf.symm.trans hfalse) }

theorem Frame.popped {f : Footprint} {s u : State} (h : Frame f s u) (hf : f.stack = true) : Frame f s (popped u) :=
  { h with stack := fun hfalse => Bool.noConfusion (hf.symm.trans hfalse) }

theorem Frame.afterDraw {f : Footprint} {s u : State} (h : Frame f s u) (hf : f.draws = true) :
    Frame f s (afterDraw u) :=
  { h with draws := fun hfalse => Bool.noConfusion (hf.symm.trans hfalse) }

/-! ### CALL and RET -/

theorem execCall_of_overflow {s : State} (nnn : Addr) (h : s.cfg.stackPolicy = .bounded ∧ s.sp = 8) :
    execCall nnn s = raiseFault (.stackOverflow s.pc) s :=
  if_pos ((pushOverflows_iff s).mpr h)

theorem execCall_of_room {s : State} (nnn : Addr) (h : ¬ (s.cfg.stackPolicy = .bounded ∧ s.sp = 8)) :
    execCall nnn s = finishAt nnn.toNat (pushed s (returnAddress s)) :=
  if_neg (mt (pushOverflows_iff s).mp h)

theorem execRet_of_underflow {s : State} (h : s.cfg.stackPolicy = .bounded ∧ s.sp = 0) :
    execRet s = raiseFault (.stackUnderflow s.pc) s :=
  if_pos ((popUnderflows_iff s).mpr h)

theorem execRet_of_held {s : State} (h : ¬ (s.cfg.stackPolicy = .bounded ∧ s.sp = 0)) :
    execRet s = finishAt (poppedAddress s).toNat (popped s) :=
  if_neg (mt (popUnderflows_iff s).mp h)

/-! ### Every instruction -/

theorem commits_of_ldVxK (x : Reg) (s : State) : Commits (.ldVxK x) s := by
  cases hk : lowestHeld s with
  | none => exact ⟨_, s, execLdVxK_of_none_held x hk, Frame.refl _ s⟩
  | some k =>
    have hwrites : writesReg s (.ldVxK x) x := ⟨rfl, k, ((lowestHeld_some s k).mp hk).1⟩
    exact ⟨_, _, execLdVxK_of_lowestHeld x hk, (Frame.refl _ s).setV hwrites _⟩

/-- A shift's result stays in the registers of its row of R23. -/
theorem Frame.shiftWrite {s : State} {i : Instr} {x y : Reg} (h : ∀ r, writesReg s (.shr x y) r → writesReg s i r)
    (b : Byte) : Frame (footprint s i) s (shiftWrite s x y b) :=
  { Frame.refl (footprint s i) s with
    regs := fun r hr => (getV_shiftWrite_of_not_writesReg (mt (h r) hr)).2 b }

theorem writesReg_shr_regVF (s : State) (x y : Reg) : writesReg s (.shr x y) regVF := by
  cases h : s.cfg.shiftProfile with
  | legacy => exact (writesReg_shr_legacy h).mpr (.inr (.inr rfl))
  | modern => exact (writesReg_shr_modern h).mpr (.inr rfl)

/-- Every instruction completes, or is a call or a return that takes its stack fault. -/
theorem commits_or_takesFault (i : Instr) (s : State) :
    Commits i s ∨ ∃ r, TakesStackFault i s r ∧ TakesFault i s r := by
  cases i with
  | call nnn =>
    by_cases h : s.cfg.stackPolicy = .bounded ∧ s.sp = 8
    · exact .inr ⟨_, ⟨h.1, .inl ⟨⟨nnn, rfl⟩, h.2, rfl⟩⟩, execCall_of_overflow nnn h⟩
    · exact .inl ⟨_, _, execCall_of_room nnn h, (Frame.refl _ s).pushed rfl _⟩
  | ret =>
    by_cases h : s.cfg.stackPolicy = .bounded ∧ s.sp = 0
    · exact .inr ⟨_, ⟨h.1, .inr ⟨rfl, h.2, rfl⟩⟩, execRet_of_underflow h⟩
    · exact .inl ⟨_, _, execRet_of_held h, (Frame.refl _ s).popped rfl⟩
  | jp _ | seImm _ _ | sneImm _ _ | seReg _ _ | sneReg _ _ | jpV0 _ | skp _ | sknp _ =>
    exact .inl ⟨_, s, rfl, Frame.refl _ s⟩
  | ldImm _ _ | addImm _ _ | ldReg _ _ | orReg _ _ | andReg _ _ | xorReg _ _ | ldVxDT _ =>
    exact .inl ⟨_, _, rfl, (Frame.refl _ s).setV rfl _⟩
  | addReg _ _ | subReg _ _ | subn _ _ =>
    exact .inl ⟨_, _, rfl, ((Frame.refl _ s).setV (Or.inl rfl) _).setFlag (Or.inr rfl) _⟩
  | shr x y | shl x y =>
    exact .inl ⟨_, _, rfl, (Frame.shiftWrite (fun _ => id) _).setFlag (writesReg_shr_regVF s x y) _⟩
  | rnd _ _ => exact .inl ⟨_, _, rfl, ((Frame.refl _ s).afterDraw rfl).setV rfl _⟩
  | cls => exact .inl ⟨_, _, rfl, (Frame.refl _ s).setDisplay rfl _⟩
  | drw _ _ _ => exact .inl ⟨_, _, rfl, ((Frame.refl _ s).setDisplay rfl _).setFlag rfl _⟩
  | ldI _ | addI _ | ldF _ => exact .inl ⟨_, _, rfl, (Frame.refl _ s).setI Bool.noConfusion⟩
  | ldB _ =>
    refine .inl ⟨_, _, rfl, (((Frame.refl _ s).writeByte ?_ _).writeByte ?_ _).writeByte ?_ _⟩
    · exact ⟨0, by decide, rfl⟩
    · exact ⟨1, by decide, rfl⟩
    · exact ⟨2, by decide, rfl⟩
  | storeRegs x =>
    refine .inl ⟨_, _, rfl, Frame.bumpIndex (Frame.storeBlock fun k hk => ?_) rfl x⟩
    exact ⟨k, Nat.le_of_lt_succ hk, rfl⟩
  | loadRegs x =>
    refine .inl ⟨_, _, rfl, Frame.bumpIndex (Frame.loadBlock fun k hk => ?_) rfl x⟩
    exact Nat.le_of_lt_succ ((Nat.mod_le k 16).trans_lt hk)
  | ldVxK x => exact .inl (commits_of_ldVxK x s)
  | ldDTVx _ => exact .inl ⟨_, _, rfl, (Frame.refl _ s).setDT rfl _⟩
  | ldSTVx _ => exact .inl ⟨_, _, rfl, (Frame.refl _ s).setST rfl _⟩

/-- What the next state of an instruction can be. -/
theorem exec_next_cases {i : Instr} {s t : State} (h : exec i s = .next t) :
    (Frame (footprint s i) s t ∧ t.drawn = drawHint s.cfg i) ∨
      ∃ r, TakesStackFault i s r ∧ t = { s with fault := some r } := by
  rcases commits_or_takesFault i s with ⟨next, u, he, hframe⟩ | ⟨r, hr, he⟩
  · cases h.symm.trans he
    exact .inl ⟨hframe.commit next _, rfl⟩
  · cases h.symm.trans he
    exact .inr ⟨r, hr, rfl⟩

/-- Settles O10: a completed instruction and a stack fault both answer a next state. -/
theorem everyInstructionAnswersANextState : Obligations.EveryInstructionAnswersANextState := by
  intro i s
  rcases commits_or_takesFault i s with ⟨next, u, he, -⟩ | ⟨r, -, he⟩
  · exact ⟨_, he⟩
  · exact ⟨_, he⟩

/-- Settles O11: a completed instruction keeps the record, so what leaves one recorded is a stack fault. -/
theorem onlyCallAndReturnRaiseStackFaults : Obligations.OnlyCallAndReturnRaiseStackFaults := by
  intro i s t hnone h hfault
  rcases exec_next_cases h with ⟨hframe, -⟩ | ⟨r, ⟨hpolicy, hcause⟩, rfl⟩
  · exact absurd (hframe.fault.trans hnone) hfault
  · refine ⟨hpolicy, ?_⟩
    rcases hcause with ⟨hcall, hsp, rfl⟩ | ⟨hret, hsp, rfl⟩
    · exact .inl ⟨hcall, hsp, rfl⟩
    · exact .inr ⟨hret, hsp, rfl⟩

/-- Settles O44: the table of R23 is the register part of every instruction's footprint. -/
theorem registersChangeOnlyAsTheTableSays : Obligations.RegistersChangeOnlyAsTheTableSays :=
  ⟨fun _ _ _ h _ hr => getV_exec_of_not_writesReg h hr,
    fun s keys r => ⟨getV_setKeys keys s r, getV_advanceTimers s r⟩⟩

theorem writesDelay_eq_false {i : Instr} (h : ∀ x, i ≠ .ldDTVx x) : writesDelay i = false := by
  cases i with
  | ldDTVx x => exact absurd rfl (h x)
  | _ => rfl

theorem writesSound_eq_false {i : Instr} (h : ∀ x, i ≠ .ldSTVx x) : writesSound i = false := by
  cases i with
  | ldSTVx x => exact absurd rfl (h x)
  | _ => rfl

/-- Settles O46: each unit is a part of the footprint, and a stack fault changes none of them. -/
theorem eachUnitIsWrittenOnlyByItsInstructions : Obligations.EachUnitIsWrittenOnlyByItsInstructions := by
  intro i s t h
  rcases exec_next_cases h with ⟨hframe, -⟩ | ⟨r, -, rfl⟩
  · exact ⟨hframe.bytes, hframe.display, hframe.stack, hframe.index, fun hi => hframe.delay (writesDelay_eq_false hi),
      fun hi => hframe.sound (writesSound_eq_false hi), hframe.keys, hframe.cfg⟩
  · exact ⟨fun _ _ => rfl, fun _ => rfl, fun _ => ⟨rfl, rfl⟩, fun _ => rfl, fun _ => rfl, fun _ => rfl, rfl, rfl⟩

/-! ### The step -/

theorem step_of_decode {s : State} {i : Instr} (hnone : s.fault = none) (hi : decode (fetchOpcode s) = .ok i) :
    step s = exec i s := by
  simp only [step, hnone, hi]

/-- Settles O7: the two bytes are those of the fetch. -/
theorem stepRunsTheDecodedInstruction : Obligations.StepRunsTheDecodedInstruction :=
  fun _ _ hnone hi => step_of_decode hnone hi

/-- Settles O8: the words of the group table are those the decoder refuses. -/
theorem invalidOpcodeSetsOnlyTheFaultRecord : Obligations.InvalidOpcodeSetsOnlyTheFaultRecord := by
  intro s hnone hgroup
  have hdecode := (invalidWordsAreThoseOfTheGroupTable (fetchOpcode s)).mpr hgroup
  simp only [step, hnone, hdecode, raiseInvalidOpcode, raiseFault_eq]

theorem step_of_fault {s : State} {r : FaultRecord} (hr : s.fault = some r) : step s = .fault (.halted r) := by
  simp only [step, hr]

/-- Settles O9: the record is looked at before the fetch, and the Step operation has no effect where there is no next
state. -/
theorem haltedCoreTakesNoStep : Obligations.HaltedCoreTakesNoStep := by
  intro s r hr
  have hstep := step_of_fault hr
  exact ⟨hstep, by simp only [stepOp, hstep]⟩

/-- Settles O12: the commit of a completed instruction sets the hint, and the faulting steps leave a record. -/
theorem drawHintFollowsTheExecutedOpcode : Obligations.DrawHintFollowsTheExecutedOpcode := by
  intro s t i hi hstep hnone
  obtain ⟨hrunning, -⟩ := step_next_cases hstep
  have hexec : exec i s = .next t := (step_of_decode hrunning hi).symm.trans hstep
  rcases exec_next_cases hexec with ⟨-, hdrawn⟩ | ⟨r, -, rfl⟩
  · rw [hdrawn, drawHint_iff]
  · cases hnone

end Sys2Proof.Machine
end

section
/-! PROOFS. The invariant (R25, R30 to R32, R60): every state operation keeps it, so every instruction, every step and
every schedule does; and what schedules keep besides (R251, R255, R299). -/

namespace Sys2Proof.Machine

/-! ### The invariant under the state operations -/

/-- The invariant speaks of memory, I, the stack, SP and the configuration alone. -/
theorem State.Inv.of_fields {s t : State} (h : s.Inv) (hmem : t.mem = s.mem) (hi : t.i = s.i)
    (hstack : t.stack = s.stack) (hsp : t.sp = s.sp) (hcfg : t.cfg = s.cfg) : t.Inv where
  memCanonical := hmem ▸ h.memCanonical
  indexInRange := hi ▸ h.indexInRange
  slotsAreAddresses := hstack ▸ h.slotsAreAddresses
  upperSlotsZero := hstack ▸ h.upperSlotsZero
  wrapPointer := by rw [hsp, hcfg]; exact h.wrapPointer

theorem State.Inv.of_next_commit {t u : State} {next : Nat} {drew : Bool}
    (h : (.next (commit next drew u) : Result) = .next t) (hu : u.Inv) : t.Inv := by
  cases h
  exact hu.of_fields rfl rfl rfl rfl rfl

theorem State.Inv.writeByte {s : State} (h : s.Inv) (a : Addr) (b : Byte) : (writeByte s a b).Inv :=
  { h with memCanonical := writeByte_wf s a b h.memCanonical }

theorem State.Inv.storeBlock {s : State} (h : s.Inv) (n : Nat) : (storeBlock s n).Inv := by
  induction n with
  | zero => exact h
  | succ n ih => exact ih.writeByte _ _

theorem State.Inv.loadBlock {s : State} (h : s.Inv) (n : Nat) : (loadBlock s n).Inv :=
  h.of_fields (loadBlock_mem s n) (loadBlock_i s n) (loadBlock_stack s n) (loadBlock_sp s n) (loadBlock_cfg s n)

theorem State.Inv.setI {s : State} (h : s.Inv) {w : BitVec 16} (hw : w.toNat < 4096) : (setI s w).Inv :=
  { h with indexInRange := hw }

theorem address_setWidth_lt (a : Addr) : (a.setWidth 16).toNat < 4096 := by
  rw [BitVec.toNat_setWidth_of_le (by decide)]
  exact a.isLt

theorem advancedIndex_lt (s : State) (n : Nat) : (advancedIndex s n).toNat < 4096 := by
  rw [advancedIndex_toNat]
  exact Nat.mod_lt _ (by decide)

theorem glyphAddr_lt (s : State) (x : Reg) : (glyphAddr s x).toNat < 4096 := by
  have hv : (getV s x).toNat < 256 := (getV s x).isLt
  rw [glyphAddr_toNat]
  omega

theorem State.Inv.bumpIndex {s : State} (h : s.Inv) (x : Reg) : (bumpIndex x s).Inv := by
  refine h.setI ?_
  cases hp : s.cfg.memIncProfile with
  | legacy => exact indexAfterBlock_legacy (x := x) hp ▸ h.indexInRange
  | modern => exact indexAfterBlock_modern_toNat (x := x) hp ▸ Nat.mod_lt _ (by decide)

/-- Below the overflow the pushed slot is one of the eight that are used (R31, R32). -/
theorem State.Inv.sp_lt_of_room {s : State} (h : s.Inv) (hroom : ¬ (s.cfg.stackPolicy = .bounded ∧ s.sp = 8)) :
    s.sp.val < 8 := by
  cases hp : s.cfg.stackPolicy with
  | wrap8 => exact h.wrapPointer hp
  | bounded =>
    have hne : s.sp ≠ 8 := fun e => hroom ⟨hp, e⟩
    omega

theorem State.Inv.pushed {s : State} (h : s.Inv) (hsp : s.sp.val < 8) {a : BitVec 16} (ha : a.toNat < 4096) :
    (pushed s a).Inv where
  memCanonical := h.memCanonical
  indexInRange := h.indexInRange
  slotsAreAddresses k := by
    rw [pushed_slot]
    split
    · exact ha
    · exact h.slotsAreAddresses k
  upperSlotsZero k hk := by
    rw [pushed_slot, if_neg (by omega)]
    exact h.upperSlotsZero k hk
  wrapPointer hp := spAfterPush_wrap8 s hp ▸ Nat.mod_lt _ (by decide)

theorem State.Inv.popped {s : State} (h : s.Inv) : (popped s).Inv :=
  { h with wrapPointer := fun hp => spAfterPop_wrap8 s hp ▸ Nat.mod_lt _ (by decide) }

theorem returnAddress_lt (s : State) : (returnAddress s).toNat < 4096 := by
  rw [returnAddress_toNat]
  exact Nat.mod_lt _ (by decide)

/-! ### The invariant under instructions and steps -/

theorem State.Inv.setFault {s : State} (h : s.Inv) (r : FaultRecord) : State.Inv { s with fault := some r } :=
  h.of_fields rfl rfl rfl rfl rfl

theorem State.Inv.execCall {s t : State} {nnn : Addr} (hs : s.Inv) (h : execCall nnn s = .next t) : t.Inv := by
  by_cases hfull : s.cfg.stackPolicy = .bounded ∧ s.sp = 8
  · cases (execCall_of_overflow nnn hfull).symm.trans h
    exact hs.setFault _
  · exact .of_next_commit ((execCall_of_room nnn hfull).symm.trans h)
      (hs.pushed (hs.sp_lt_of_room hfull) (returnAddress_lt s))

theorem State.Inv.execRet {s t : State} (hs : s.Inv) (h : execRet s = .next t) : t.Inv := by
  by_cases hempty : s.cfg.stackPolicy = .bounded ∧ s.sp = 0
  · cases (execRet_of_underflow hempty).symm.trans h
    exact hs.setFault _
  · exact .of_next_commit ((execRet_of_held hempty).symm.trans h) hs.popped

theorem State.Inv.execLdVxK {s t : State} {x : Reg} (hs : s.Inv) (h : execLdVxK x s = .next t) : t.Inv := by
  cases hk : lowestHeld s with
  | none => exact .of_next_commit ((execLdVxK_of_none_held x hk).symm.trans h) hs
  | some k =>
    exact .of_next_commit ((execLdVxK_of_lowestHeld x hk).symm.trans h) (hs.of_fields rfl rfl rfl rfl rfl)

theorem State.Inv.exec {i : Instr} {s t : State} (hs : s.Inv) (h : exec i s = .next t) : t.Inv := by
  cases i with
  | call _ => exact hs.execCall h
  | ret => exact hs.execRet h
  | ldVxK _ => exact hs.execLdVxK h
  | ldI nnn => exact .of_next_commit h (hs.setI (address_setWidth_lt nnn))
  | addI x => exact .of_next_commit h (hs.setI (advancedIndex_lt s (getV s x).toNat))
  | ldF x => exact .of_next_commit h (hs.setI (glyphAddr_lt s x))
  | ldB _ => exact .of_next_commit h (((hs.writeByte _ _).writeByte _ _).writeByte _ _)
  | storeRegs x => exact .of_next_commit h ((hs.storeBlock (x.val + 1)).bumpIndex x)
  | loadRegs x => exact .of_next_commit h ((hs.loadBlock (x.val + 1)).bumpIndex x)
  | _ =>
    -- the handler writes registers, timers or the display, of which the invariant does not speak
    exact .of_next_commit h (hs.of_fields rfl rfl rfl rfl rfl)

/-- Settles O49: a step is an instruction, which keeps the invariant, or an entry of InvalidOpcode, which changes the
record alone. -/
theorem everyStepKeepsTheInvariant : Obligations.EveryStepKeepsTheInvariant := by
  intro s t hs hstep
  obtain ⟨-, ⟨i, -, hexec⟩ | ⟨-, rfl⟩⟩ := step_next_cases hstep
  · exact hs.exec hexec
  · exact hs.setFault _

/-! ### Precise faults (R255) -/

theorem faultPrecise_of_none {s : State} (h : s.fault = none) : FaultPrecise s := by
  simp only [FaultPrecise, h]

/-- A stack fault is taken by the instruction that PC stands at, and its condition stays in SP. -/
theorem TakesStackFault.precise {i : Instr} {s : State} {r : FaultRecord} (h : TakesStackFault i s r)
    (hi : decode (fetchOpcode s) = .ok i) : FaultPrecise { s with fault := some r } := by
  obtain ⟨hpolicy, ⟨⟨nnn, rfl⟩, hsp, rfl⟩ | ⟨rfl, hsp, rfl⟩⟩ := h
  · exact ⟨rfl, hpolicy, hsp, nnn, hi⟩
  · exact ⟨rfl, hpolicy, hsp, hi⟩

/-- A step leaves no fault, or the one that it raised itself. -/
theorem faultPrecise_of_step {s t : State} (hstep : step s = .next t) : FaultPrecise t := by
  obtain ⟨hnone, ⟨i, hi, hexec⟩ | ⟨hrefused, rfl⟩⟩ := step_next_cases hstep
  · rcases exec_next_cases hexec with ⟨hframe, -⟩ | ⟨r, hr, rfl⟩
    · exact faultPrecise_of_none (hframe.fault.trans hnone)
    · exact hr.precise hi
  · exact ⟨rfl, rfl, hrefused⟩

theorem step_cfg {s t : State} (hstep : step s = .next t) : t.cfg = s.cfg := by
  obtain ⟨-, ⟨i, -, hexec⟩ | ⟨-, rfl⟩⟩ := step_next_cases hstep
  · rcases exec_next_cases hexec with ⟨hframe, -⟩ | ⟨r, -, rfl⟩
    · exact hframe.cfg
    · rfl
  · rfl

/-! ### Construction -/

theorem State.Inv.fresh (cfg : Config) {mem : Memory} (hmem : Memory.wf mem) : (State.fresh cfg mem).Inv where
  memCanonical := hmem
  indexInRange := by simp [State.fresh]
  slotsAreAddresses k := by simp [State.fresh]
  upperSlotsZero k _ := by simp [State.fresh]
  wrapPointer _ := by simp [State.fresh]

/-- Settles O48: the reset state is a fresh machine that lists no memory and records no fault. -/
theorem resetMeetsTheInvariant : Obligations.ResetMeetsTheInvariant :=
  ⟨.fresh Config.reset reset_mem_wf, faultPrecise_of_none rfl⟩

theorem construct_of_wellFormed {cfg : Config} (image : List Byte) (h : cfg.wellFormed = true) :
    construct (some image) cfg = .ok (State.fresh cfg (constructMemory cfg.font image)) :=
  if_pos h

theorem eq_fresh_of_construct {image : List Byte} {cfg : Config} {s : State} (h : construct (some image) cfg = .ok s) :
    s = State.fresh cfg (constructMemory cfg.font image) := by
  by_cases hw : cfg.wellFormed = true
  · cases (construct_of_wellFormed image hw).symm.trans h
    rfl
  · rw [construct, if_neg hw] at h
    cases h

/-! ### Schedules -/

/-- Settles O50: the three clauses hold of every machine Construct builds, and each host operation keeps them. -/
theorem everyScheduleKeepsTheInvariant : Obligations.EveryScheduleKeepsTheInvariant := by
  intro image cfg s hs ops
  refine runSchedule_keeps (P := fun s => s.Inv ∧ FaultPrecise s ∧ s.cfg = cfg) ?step ?setKeys ?advanceTimers ops s
    ?construct
  case step =>
    rintro s t ⟨hinv, -, hcfg⟩ hstep
    exact ⟨everyStepKeepsTheInvariant s t hinv hstep, faultPrecise_of_step hstep, (step_cfg hstep).trans hcfg⟩
  case setKeys =>
    rintro s keys ⟨hinv, hprecise, hcfg⟩
    exact ⟨hinv.of_fields rfl rfl rfl rfl rfl, hprecise, hcfg⟩
  case advanceTimers =>
    rintro s ⟨hinv, hprecise, hcfg⟩
    exact ⟨hinv.of_fields rfl rfl rfl rfl rfl, hprecise, hcfg⟩
  case construct =>
    rw [eq_fresh_of_construct hs]
    exact ⟨.fresh cfg (constructMemory_wf cfg.font image), faultPrecise_of_none rfl, rfl⟩

/-- `t` is the halted `s` but for the keys and the timers, which are the host's (R251, R260). -/
def HaltedAs (s t : State) : Prop :=
  ∃ keys dt st, t = { s with keys := keys, dt := dt, st := st }

/-- Settles O51: a halted core takes no step, and the two other host operations write what `HaltedAs` leaves out. -/
theorem recordedFaultIsStickyUnderEverySchedule : Obligations.RecordedFaultIsStickyUnderEverySchedule := by
  intro ops s r hr
  have hhalted : ∀ t, HaltedAs s t → step t = .fault (.halted r) := by
    rintro _ ⟨keys, dt, st, rfl⟩
    exact step_of_fault hr
  have hend : HaltedAs s (runSchedule ops s) := by
    refine runSchedule_keeps (P := HaltedAs s) ?step ?setKeys ?advanceTimers ops s ⟨_, _, _, rfl⟩
    case step =>
      intro t u ht hstep
      cases (hhalted t ht).symm.trans hstep
    case setKeys =>
      rintro _ keys ⟨_, dt, st, rfl⟩
      exact ⟨keys, dt, st, rfl⟩
    case advanceTimers =>
      rintro _ ⟨keys, dt, st, rfl⟩
      exact ⟨keys, timerTick dt, timerTick st, rfl⟩
  refine ⟨hhalted _ hend, ?_⟩
  obtain ⟨keys, dt, st, he⟩ := hend
  rw [he]

/-- A property that Step and AdvanceTimers keep holds after every schedule without SetKeys. -/
theorem runSchedule_keeps_without_setKeys {P : State → Prop} (hstep : ∀ s, P s → P (stepOp s))
    (htimers : ∀ s, P s → P (advanceTimers s)) {ops : List HostOp} (hops : ∀ op ∈ ops, ∀ keys, op ≠ .setKeys keys)
    {s : State} (h : P s) : P (runSchedule ops s) := by
  induction ops generalizing s with
  | nil => exact h
  | cons op ops ih =>
    obtain ⟨hop, hrest⟩ := List.forall_mem_cons.mp hops
    cases op with
    | setKeys keys => exact absurd rfl (hop keys)
    | step => exact ih hrest (hstep s h)
    | advanceTimers => exact ih hrest (htimers s h)

/-- `t` is the waiting `s` but for the timers and the draw hint. -/
def WaitsAs (s t : State) : Prop :=
  ∃ dt st drew, t = { s with dt := dt, st := st, drawn := drew }

/-- A poll of FX0A with no key held leaves PC where it is (R233). -/
theorem stepOp_of_keyWait {s : State} {x : Reg} (hnone : s.fault = none)
    (hwait : decode (fetchOpcode s) = .ok (.ldVxK x)) (hkeys : ∀ k, held s k = false) :
    stepOp s = { s with drawn := false } := by
  have hlowest : lowestHeld s = none := (lowestHeld_none s).mpr hkeys
  have hstep : step s = finishAt s.pc.toNat s := (step_of_decode hnone hwait).trans (execLdVxK_of_none_held x hlowest)
  simp only [stepOp, hstep, finishAt_eq, commit, a12_addr_toNat]

/-- Settles O43: each operation of the schedule is one more poll or a tick of the timers. -/
theorem keyWaitLastsUntilTheHostSetsAKey : Obligations.KeyWaitLastsUntilTheHostSetsAKey := by
  intro ops x s hnone hwait hkeys hops
  have hend : WaitsAs s (runSchedule ops s) := by
    refine runSchedule_keeps_without_setKeys (P := WaitsAs s) ?step ?advanceTimers hops ⟨_, _, _, rfl⟩
    case step =>
      rintro _ ⟨dt, st, drew, rfl⟩
      exact ⟨dt, st, false, stepOp_of_keyWait hnone hwait hkeys⟩
    case advanceTimers =>
      rintro _ ⟨dt, st, drew, rfl⟩
      exact ⟨timerTick dt, timerTick st, drew, rfl⟩
  obtain ⟨dt, st, drew, he⟩ := hend
  rw [he]
  exact ⟨rfl, rfl, rfl, rfl, rfl, rfl, rfl, rfl, hnone⟩

end Sys2Proof.Machine
end

section
/-! PROOFS. The sound timer as a value that no instruction reads (R35): setting it before an instruction or after it
is the same. -/

namespace Sys2Proof.Machine

theorem storeBlock_setST (s : State) (b : Byte) (n : Nat) : storeBlock (setST s b) n = setST (storeBlock s n) b := by
  induction n with
  | zero => rfl
  | succ n ih => rw [storeBlock, ih]; rfl

theorem loadBlock_setST (s : State) (b : Byte) (n : Nat) : loadBlock (setST s b) n = setST (loadBlock s n) b := by
  induction n with
  | zero => rfl
  | succ n ih => rw [loadBlock, ih]; rfl

theorem drawRows_setST (s : State) (b : Byte) (x0 y0 n : Nat) :
    drawRows (setST s b) x0 y0 n = drawRows s x0 y0 n := by
  induction n with
  | zero => rfl
  | succ n ih => rw [drawRows, ih]; rfl

theorem drawSprite_setST (x y : Reg) (n : Nat) (s : State) (b : Byte) :
    drawSprite x y n (setST s b) = drawSprite x y n s :=
  drawRows_setST s b _ _ _

/-- What an instruction other than FX18 does is the same whatever ST holds, and it carries ST along. -/
theorem exec_setST {i : Instr} (s : State) (b : Byte) (hi : ∀ x, i ≠ .ldSTVx x) :
    ∃ t, exec i s = .next t ∧ exec i (setST s b) = .next (setST t b) := by
  cases i with
  | ldSTVx x => exact absurd rfl (hi x)
  | call nnn =>
    by_cases h : s.cfg.stackPolicy = .bounded ∧ s.sp = 8
    · exact ⟨_, execCall_of_overflow nnn h, execCall_of_overflow (s := setST s b) nnn h⟩
    · exact ⟨_, execCall_of_room nnn h, execCall_of_room (s := setST s b) nnn h⟩
  | ret =>
    by_cases h : s.cfg.stackPolicy = .bounded ∧ s.sp = 0
    · exact ⟨_, execRet_of_underflow h, execRet_of_underflow (s := setST s b) h⟩
    · exact ⟨_, execRet_of_held h, execRet_of_held (s := setST s b) h⟩
  | ldVxK x =>
    cases h : lowestHeld s with
    | none => exact ⟨_, execLdVxK_of_none_held x h, execLdVxK_of_none_held (s := setST s b) x h⟩
    | some k => exact ⟨_, execLdVxK_of_lowestHeld x h, execLdVxK_of_lowestHeld (s := setST s b) x h⟩
  | storeRegs x =>
    refine ⟨_, rfl, ?_⟩
    simp only [exec, execStoreRegs, storeBlock_setST]
    rfl
  | loadRegs x =>
    refine ⟨_, rfl, ?_⟩
    simp only [exec, execLoadRegs, loadBlock_setST]
    rfl
  | drw x y n =>
    refine ⟨_, rfl, ?_⟩
    simp only [exec, execDrw, drawSprite_setST]
    rfl
  | _ => exact ⟨_, rfl, rfl⟩

/-- Settles O47: FX18 overwrites ST, and every other instruction carries it along. -/
theorem noInstructionReadsTheSoundTimer : Obligations.NoInstructionReadsTheSoundTimer := by
  intro i s b
  by_cases hi : ∃ x, i = .ldSTVx x
  · obtain ⟨x, rfl⟩ := hi
    exact ⟨_, rfl, fun hne => absurd rfl (hne x), fun _ => rfl⟩
  · obtain ⟨t, hs, hb⟩ := exec_setST s b (fun x hx => hi ⟨x, hx⟩)
    exact ⟨t, hs, fun _ => hb, fun hx => absurd hx hi⟩

end Sys2Proof.Machine
end

section
/-! PROOFS. The call stack (R30 to R33, R141, R143): call and return under both policies, the faults at the ends of a
bounded stack, and its last-in first-out order. -/

namespace Sys2Proof.Machine

/-! ### Call and return -/

/-- Settles O17: the handler pushes the return address and jumps, where there is room. -/
theorem callPushesTheReturnAddressAndJumps : Obligations.CallPushesTheReturnAddressAndJumps := by
  intro nnn s hroom
  refine ⟨encodesAs_encode (Laws.EncodeRow.call nnn) rfl, completes_of_commit (execCall_of_room nnn hroom)
    ((Frame.refl _ s).pushed rfl _) ⟨a12_addr_toNat nnn, fun k => ?slots, fun hp => ?bounded, spAfterPush_wrap8 s⟩⟩
  case slots =>
    show (pushed s (returnAddress s)).stack[k].toNat = _
    rw [pushed_slot, apply_ite BitVec.toNat, returnAddress_toNat]
  case bounded =>
    have hne : s.sp ≠ 8 := fun e => hroom ⟨hp, e⟩
    exact spAfterPush_bounded s hp (by omega)

/-- Settles O18: the slot at the SP the pop leaves is the one it reads, and no slot is written. -/
theorem returnPopsTheReturnAddress : Obligations.ReturnPopsTheReturnAddress := by
  intro s hheld
  refine ⟨encodesAs_encode Laws.EncodeRow.ret rfl, spAfterPop s, fun hp => ?bounded, spAfterPop_wrap8 s,
    completes_of_commit (execRet_of_held hheld) ((Frame.refl _ s).popped rfl) ⟨rfl, rfl⟩⟩
  case bounded =>
    have hne : s.sp ≠ 0 := fun e => hheld ⟨hp, e⟩
    rw [spAfterPop_bounded s hp]
    omega

/-- Settles O19: the two ends of a bounded stack are the two cases that take a fault. -/
theorem boundedStackFaultsAtItsEnds : Obligations.BoundedStackFaultsAtItsEnds :=
  fun _ hp => ⟨fun nnn hfull => execCall_of_overflow nnn ⟨hp, hfull⟩, fun hempty => execRet_of_underflow ⟨hp, hempty⟩⟩

/-! ### A pop after a push -/

/-- Below eight entries, the pop takes SP back to where the push found it (R31, R32). -/
theorem spAfterPop_pushed {s : State} (a : BitVec 16) (hsp : s.sp.val < 8) : spAfterPop (pushed s a) = s.sp := by
  apply Fin.ext
  cases hp : s.cfg.stackPolicy with
  | bounded =>
    rw [spAfterPop_bounded (pushed s a) hp, pushed_sp, spAfterPush_bounded s hp hsp, Nat.add_sub_cancel]
  | wrap8 =>
    rw [spAfterPop_wrap8 (pushed s a) hp, pushed_sp, spAfterPush_wrap8 s hp]
    omega

theorem poppedAddress_pushed {s : State} (a : BitVec 16) (hsp : s.sp.val < 8) : poppedAddress (pushed s a) = a := by
  rw [poppedAddress, spAfterPop_pushed a hsp]
  exact Vector.getElem_set_self _

/-- A push that does not overflow leaves an entry to pop. -/
theorem pushed_not_empty {s : State} (a : BitVec 16) (hsp : s.sp.val < 8) :
    ¬ ((pushed s a).cfg.stackPolicy = .bounded ∧ (pushed s a).sp = 0) := by
  rintro ⟨hp, hzero⟩
  have hval := congrArg Fin.val hzero
  rw [pushed_sp, spAfterPush_bounded s hp hsp] at hval
  exact Nat.succ_ne_zero _ hval

/-- The commit of a call touches neither slots nor SP, so a return after it pops what the call pushed. -/
theorem execRet_commit_pushed {s : State} (a : BitVec 16) (hsp : s.sp.val < 8) (next : Nat) (drew : Bool) :
    execRet (commit next drew (pushed s a)) = finishAt a.toNat (popped (commit next drew (pushed s a))) := by
  have hpop : poppedAddress (commit next drew (pushed s a)) = a := poppedAddress_pushed a hsp
  rw [execRet_of_held (s := commit next drew (pushed s a)) (pushed_not_empty a hsp), hpop]

/-- Settles O20: the return pops the address the call pushed, from the one slot that the call wrote. -/
theorem returnComesBackAfterTheCall : Obligations.ReturnComesBackAfterTheCall := by
  intro nnn s hinv hroom
  have hsp : s.sp.val < 8 := hinv.sp_lt_of_room hroom
  refine ⟨_, _, execCall_of_room nnn hroom, execRet_commit_pushed (returnAddress s) hsp _ _, ?pc,
    spAfterPop_pushed (returnAddress s) hsp, fun k hk => ?slots, rfl⟩
  case pc => rw [commit_pc, a12_toNat, returnAddress_toNat, Nat.mod_mod]
  case slots => exact (pushed_slot s (returnAddress s) k).trans (if_neg hk)

/-! ### Last in, first out -/

theorem pushAll_append_singleton (as : List (BitVec 16)) (a : BitVec 16) (s : State) :
    pushAll (as ++ [a]) s = pushed (pushAll as s) a := by
  induction as generalizing s with
  | nil => rfl
  | cons b as ih => exact ih (pushed s b)

theorem pushAll_bounded {as : List (BitVec 16)} {s : State} (hp : s.cfg.stackPolicy = .bounded) :
    (pushAll as s).cfg.stackPolicy = .bounded := by
  induction as generalizing s with
  | nil => exact hp
  | cons a as ih => exact ih (s := pushed s a) hp

theorem pushAll_sp {as : List (BitVec 16)} {s : State} (hp : s.cfg.stackPolicy = .bounded)
    (hfit : s.sp.val + as.length ≤ 8) : (pushAll as s).sp.val = s.sp.val + as.length := by
  induction as generalizing s with
  | nil => rfl
  | cons a as ih =>
    rw [List.length_cons] at hfit ⊢
    have hsp : (pushed s a).sp.val = s.sp.val + 1 := spAfterPush_bounded s hp (by omega)
    rw [pushAll, ih (s := pushed s a) hp (by omega), hsp]
    omega

/-- Pops of a bounded stack read the slots below SP alone. -/
theorem popAll_congr {n : Nat} {s t : State} (hs : s.cfg.stackPolicy = .bounded) (ht : t.cfg.stackPolicy = .bounded)
    (hsp : t.sp = s.sp) (hn : n ≤ s.sp.val) (hslots : ∀ k : Fin 12, k.val < s.sp.val → t.stack[k] = s.stack[k]) :
    popAll n t = popAll n s := by
  induction n generalizing s t with
  | zero => rfl
  | succ n ih =>
    have hpop : (spAfterPop s).val = s.sp.val - 1 := spAfterPop_bounded s hs
    have hsame : spAfterPop t = spAfterPop s := Fin.ext (by rw [spAfterPop_bounded t ht, hpop, hsp])
    have hhead : poppedAddress t = poppedAddress s := by
      rw [poppedAddress, poppedAddress, hsame]
      exact hslots ⟨(spAfterPop s).val, by omega⟩ (by rw [hpop]; omega)
    have htail : popAll n (popped t) = popAll n (popped s) :=
      ih (s := popped s) hs ht hsame (by rw [popped_sp]; omega) fun k hk => hslots k (by rw [popped_sp] at hk; omega)
    rw [popAll, popAll, hhead, htail]

/-- Popping a bounded stack right after a push leaves the entries below it. -/
theorem popAll_pushed {n : Nat} {s : State} (a : BitVec 16) (hp : s.cfg.stackPolicy = .bounded) (hsp : s.sp.val < 8)
    (hn : n ≤ s.sp.val) : popAll (n + 1) (pushed s a) = a :: popAll n s := by
  have hrest : popAll n (popped (pushed s a)) = popAll n s :=
    popAll_congr hp hp (spAfterPop_pushed a hsp) hn fun k hk => (pushed_slot s a k).trans (if_neg (by omega))
  rw [popAll, poppedAddress_pushed a hsp, hrest]

/-- Settles O21: by induction on the list from its end, which is the push that the first pop meets. -/
theorem pushedAddressesPopInReverse : Obligations.PushedAddressesPopInReverse := by
  intro as s hp hfit
  refine ⟨?_, pushAll_sp hp hfit⟩
  induction as using List.reverseRecOn with
  | nil => rfl
  | append_singleton as a ih =>
    rw [List.length_append, List.length_singleton] at hfit ⊢
    have hsp := pushAll_sp (as := as) hp (by omega)
    rw [pushAll_append_singleton, popAll_pushed a (pushAll_bounded hp) (by omega) (by omega), ih (by omega),
      List.reverse_append, List.reverse_singleton, List.singleton_append]

end Sys2Proof.Machine
end

section
/-! PROOFS. Arithmetic, logic, the left shift and the random draw (R162, R164 to R166, R171, R172), FX1E (R191) and 00E0
(R210), and the rest of the state untouched. -/

namespace Sys2Proof.Machine

/-! ### Results without a flag -/

/-- A handler that writes one result to V[X]: no other register changes, VF among them unless X = F. -/
theorem completes_of_advance_setV {i : Instr} {s : State} {x : Reg} {b : Byte} {post : State → Prop}
    (he : exec i s = advance (setV s x b)) (hw : ∀ r, writesReg s i r → r = x) (hp : ∀ t, getV t x = b → post t) :
    Completes i s { regs := (· = x) } (s.pc.toNat + 2) false post :=
  completes_of_advance he ⟨_, rfl⟩ hw (hp _ (getV_setV_same s x b))

/-- Settles O23: the handler writes the wrapped sum and no flag. -/
theorem addImmediateWrapsAndSetsNoFlag : Obligations.AddImmediateWrapsAndSetsNoFlag := by
  intro x nn s
  refine ⟨encodesAs_encode (Laws.EncodeRow.addImm x nn) rfl,
    completes_of_advance_setV rfl (fun _ => id) fun t hx => ?_⟩
  rw [hx, addWrap_toNat]

/-- Settles O24: each handler writes one bitwise operation of the two registers and no flag. -/
theorem logicOperationsWorkBitByBit : Obligations.LogicOperationsWorkBitByBit := by
  intro x y s
  refine ⟨⟨encodesAs_encode (Laws.EncodeRow.orReg x y) rfl, completes_of_advance_setV rfl (fun _ => id) fun t hx => ?or⟩,
    ⟨encodesAs_encode (Laws.EncodeRow.andReg x y) rfl, completes_of_advance_setV rfl (fun _ => id) fun t hx => ?and⟩,
    ⟨encodesAs_encode (Laws.EncodeRow.xorReg x y) rfl, completes_of_advance_setV rfl (fun _ => id) fun t hx => ?xor⟩⟩
  case or => exact fun j _ => hx ▸ BitVec.getLsbD_or
  case and => exact fun j _ => hx ▸ BitVec.getLsbD_and
  case xor => exact fun j _ => hx ▸ BitVec.getLsbD_xor

/-! ### The left shift -/

/-- Settles O28: the profile picks the source and the registers written; the flag is bit 7 of that source under both. -/
theorem shiftLeftFollowsTheProfile : Obligations.ShiftLeftFollowsTheProfile := by
  intro x y s
  refine ⟨encodesAs_encode (Laws.EncodeRow.shl x y) rfl, fun h => ?legacy, fun h => ?modern⟩
  case legacy =>
    refine completes_of_shift_legacy h rfl (fun _ => id) fun t hreg hflag => ?_
    rw [shiftSource_legacy s x y h] at hreg hflag
    exact ⟨fun hne => by rw [hreg x (.inl rfl) hne, shiftedLeft_toNat],
      fun hne => by rw [hreg y (.inr rfl) hne, shiftedLeft_toNat], hflag⟩
  case modern =>
    refine completes_of_shift_modern h rfl (fun _ => id) fun t hx hflag => ?_
    rw [shiftSource_modern s x y h] at hx hflag
    exact ⟨fun hne => by rw [hx hne, shiftedLeft_toNat], hflag⟩

/-! ### The random draw, FX1E and 00E0 -/

/-- Settles O29: whatever the draw is, the handler writes it under the mask, and a zero mask leaves zero. -/
theorem randomIsTheMaskedDraw : Obligations.RandomIsTheMaskedDraw := by
  intro x nn s
  have hx : getV (setV (afterDraw s) x (drawByte s &&& nn)) x = Config.randomByte s.draws &&& nn :=
    getV_setV_same _ x _
  refine ⟨encodesAs_encode (Laws.EncodeRow.rnd x nn) rfl,
    completes_of_advance_frame rfl (((Frame.refl _ s).afterDraw rfl).setV rfl _) rfl ⟨hx, rfl, fun hzero => ?_⟩⟩
  rw [getV_commit, hx, hzero]
  exact BitVec.and_zero

/-- Settles O31: the sum is reduced once, into I alone. -/
theorem addToIndexWraps : Obligations.AddToIndexWraps :=
  fun x s => ⟨encodesAs_encode (Laws.EncodeRow.addI x) rfl,
    completes_of_advance_setI rfl (advancedIndex_toNat s (getV s x).toNat)⟩

theorem pixel_replicate_zero (r : Fin 32) (c : Fin 64) : pixel (Vector.replicate 32 0) r c = false := by
  simp [pixel]

/-- Settles O37: every row becomes 0, and the commit carries the parameter as the hint. -/
theorem clearTurnsEveryPixelOff : Obligations.ClearTurnsEveryPixelOff :=
  fun s => ⟨encodesAs_encode Laws.EncodeRow.cls rfl,
    completes_of_commit rfl ((Frame.refl _ s).setDisplay rfl _) pixel_replicate_zero⟩

/-! ### A store that the next fetch reads -/

/-- The second byte of the next instruction is at `a12(pc + 3)` (R68, R123). -/
theorem secondByteAddr_of_pc {s t : State} (hpc : t.pc = a12 (s.pc.toNat + 2)) :
    secondByteAddr t = a12 (s.pc.toNat + 3) := by
  apply BitVec.eq_of_toNat_eq
  rw [secondByteAddr, hpc, a12_toNat, a12_toNat, a12_toNat]
  omega

/-- Settles O36: FX55 ends at `pc + 2` with its bytes in memory, and the next fetch reads memory as it then is. -/
theorem storedBytesAreFetchedNext : Obligations.StoredBytesAreFetchedNext := by
  intro x j k s t h hj hk hfirst hsecond
  obtain ⟨-, u, he, ⟨hpc, -⟩, -, hbytes, -⟩ := storeRegistersCopiesTheBlock x s
  cases he.symm.trans h
  rw [fetchOpcode, secondByteAddr_of_pc hpc, hpc, hfirst, hsecond, hbytes j hj, hbytes k hk]

/-! ### Two equal draws -/

theorem spritePixel_congr {s t : State} {x y : Reg} (n : Nat) (hx : getV t x = getV s x) (hy : getV t y = getV s y)
    (hbytes : ∀ a, readByte t a = readByte s a) (hi : t.i = s.i) (r : Fin 32) (c : Fin 64) :
    spritePixel t x y n r c = spritePixel s x y n r c := by
  simp only [spritePixel, indexAddr, hx, hy, hbytes, hi]

/-- Settles O39: the first draw leaves the sprite as it was, so the second inverts the same pixels again, and meets a
set one exactly where the first met a clear one. -/
theorem drawingTwiceRestoresTheDisplay : Obligations.DrawingTwiceRestoresTheDisplay := by
  intro x y n s hx hy
  obtain ⟨-, t, hfirst, -, hframe, hpixel, -⟩ := drawInvertsTheClippedSpritePixels x y n s
  obtain ⟨-, u, hsecond, -, -, hpixel', hmeets, hmisses⟩ := drawInvertsTheClippedSpritePixels x y n t
  have hsprite : ∀ r c, spritePixel t x y n r c = spritePixel s x y n r c :=
    spritePixel_congr n (hframe.regs x hx) (hframe.regs y hy) (fun a => hframe.bytes a id) (hframe.index rfl)
  simp only [hsprite, hpixel] at hpixel' hmeets hmisses
  refine ⟨t, u, hfirst, hsecond, display_ext _ _ fun r c => ?restored, fun hone => ?clear, ?flag⟩
  case restored => rw [hpixel', Bool.xor_assoc, Bool.xor_self, Bool.xor_false]
  case clear =>
    by_contra hnone
    have hzero : getV u regVF = 0 := hmisses fun r c hrc => by
      have hset : pixel s.display r c = true := by
        by_contra hclear
        exact hnone ⟨r, c, hrc, Bool.eq_false_iff.mpr hclear⟩
      rw [hset, hrc, Bool.xor_self]
    exact absurd (hone.symm.trans hzero) (by decide)
  case flag =>
    rintro ⟨r, c, hrc, hclear⟩
    exact hmeets ⟨r, c, hrc, by rw [hclear, hrc, Bool.false_xor]⟩

end Sys2Proof.Machine
end

section
/-! PROOFS. Construction (R47, R284 to R287): what the written lists leave in memory, and the reset values. -/

namespace Sys2Proof.Machine

/-! ### A list written to memory -/

theorem memRead_memWriteList_outside {bs : List Byte} {m : Memory} {a q : Nat} (h : q < a ∨ a + bs.length ≤ q) :
    memRead (memWriteList m a bs) q = memRead m q := by
  induction bs generalizing m a with
  | nil => rfl
  | cons b bs ih =>
    rw [List.length_cons] at h
    rw [memWriteList, ih (by omega), memRead_memWrite, if_neg (by omega)]

theorem memRead_memWriteList_inside {bs : List Byte} {m : Memory} {a k : Nat} (hk : k < bs.length) :
    memRead (memWriteList m a bs) (a + k) = bs[k] := by
  induction bs generalizing m a k with
  | nil => exact absurd hk (Nat.not_lt_zero k)
  | cons b bs ih =>
    cases k with
    | zero =>
      show memRead (memWriteList (memWrite m a b) (a + 1) bs) a = b
      rw [memRead_memWriteList_outside (.inl (Nat.lt_add_one a)), memRead_memWrite, if_pos rfl]
    | succ k =>
      have hshift : a + (k + 1) = a + 1 + k := by omega
      rw [memWriteList, hshift]
      exact ih (Nat.lt_of_succ_lt_succ hk)

/-! ### The memory Construct lays out -/

theorem length_fittingPrefix (image : List Byte) : (fittingPrefix image).length = min image.length 3584 := by
  rw [fittingPrefix, List.length_take, Nat.min_comm]

/-- Memory outside the image is that of the glyph table. -/
theorem memRead_constructMemory_outside (font : Vector Byte 80) {image : List Byte} {q : Nat}
    (h : q < 0x200 ∨ 0x200 + min image.length 3584 ≤ q) :
    memRead (constructMemory font image) q = memRead (memWriteList [] 0 font.toList) q :=
  memRead_memWriteList_outside (by rwa [length_fittingPrefix])

theorem memRead_constructMemory_font (font : Vector Byte 80) (image : List Byte) (a : Fin 80) :
    memRead (constructMemory font image) a.val = font[a] := by
  have hin : a.val < font.toList.length := by rw [Vector.length_toList]; exact a.isLt
  have hread := memRead_memWriteList_inside (m := []) (a := 0) hin
  rw [Nat.zero_add] at hread
  rw [memRead_constructMemory_outside font (.inl (by omega)), hread]
  exact Vector.getElem_toList _

theorem memRead_constructMemory_image (font : Vector Byte 80) {image : List Byte} {k : Nat} (hk : k < image.length)
    (hfit : k < 3584) : memRead (constructMemory font image) (0x200 + k) = image[k] := by
  have hin : k < (fittingPrefix image).length := by
    rw [length_fittingPrefix]
    exact Nat.lt_min.mpr ⟨hk, hfit⟩
  exact (memRead_memWriteList_inside hin).trans List.getElem_take

/-- Past the glyph table an unlisted address reads as zero (R286). -/
theorem unlistedByte_eq_zero {a : Nat} (h : 80 ≤ a) : unlistedByte a = 0 :=
  List.getD_eq_default _ _ h

theorem memRead_constructMemory_zero (font : Vector Byte 80) {image : List Byte} {a : Nat} (hfont : 80 ≤ a)
    (himage : a < 0x200 ∨ 0x200 + min image.length 3584 ≤ a) : memRead (constructMemory font image) a = 0 := by
  have hout : 0 + font.toList.length ≤ a := by rwa [Nat.zero_add, Vector.length_toList]
  rw [memRead_constructMemory_outside font himage, memRead_memWriteList_outside (.inr hout)]
  exact unlistedByte_eq_zero hfont

/-- Settles O53: the image is written after the glyph table and past it, so each of the three ranges reads its own
bytes. -/
theorem constructLaysOutMemory : Obligations.ConstructLaysOutMemory := by
  intro image cfg hw
  exact ⟨_, construct_of_wellFormed image hw, rfl, rfl, memRead_constructMemory_font cfg.font image,
    fun _ hk hfit => memRead_constructMemory_image cfg.font hk hfit,
    fun _ hfont himage => memRead_constructMemory_zero cfg.font hfont himage⟩

/-! ### The reset state -/

/-- The default FONT is what unlisted addresses read as, so writing it lists nothing. -/
theorem constructMemory_defaultFont : constructMemory Config.defaultFont [] = [] := by
  decide

theorem construct_reset : construct (some []) Config.reset = .ok State.reset := by
  rw [construct_of_wellFormed [] (by decide), State.reset]
  exact congrArg (fun mem => Except.ok (State.fresh Config.reset mem)) constructMemory_defaultFont

/-- Settles O52: an empty image leaves the default FONT alone in memory, and the other fields are those of a fresh
machine. -/
theorem resetIsConstructionOfAnEmptyImage : Obligations.ResetIsConstructionOfAnEmptyImage := by
  refine ⟨construct_reset, fun r => ?registers, rfl, rfl, fun k => ?slots, rfl, rfl, rfl, fun k => ?keys,
    fun r c => ?pixels, rfl, rfl⟩
  case registers => simp [State.reset, State.fresh, getV]
  case slots => simp [State.reset, State.fresh]
  case keys => simp [State.reset, State.fresh]
  case pixels => exact pixel_replicate_zero r c

end Sys2Proof.Machine
end
